-- ==== Sys2Proof/Word.lean ====
section
/-! DEFINITION. The word types of the engine (spec/00_scope.md R6, R7). Every value is unsigned and bit 0 is the
least significant bit (R7). `+`, `&&&`, `^^^` and `~~~` of `BitVec 32` are the spec's `+` modulo 2^32, `AND`, `XOR`
and `NOT` (R8, R100, R103). -/

namespace Sys2Proof

/-- A word: 32 bits (R6 `WORD`). -/
abbrev Word := BitVec 32

/-- A byte: 8 bits (R7). -/
abbrev Byte := BitVec 8

/-- A command word: 12 bits (R6 `CMD_BITS`, R70). -/
abbrev CmdWord := BitVec 12

/-- A response word: 34 bits (R6 `RSP_BITS`, R72). -/
abbrev RspWord := BitVec 34

/-- A phase code: 4 bits (R6, R79). -/
abbrev PhaseCode := BitVec 4

/-- Eight words: the hash state `H[0..7]` and the working registers `a..h` (R21, R22). -/
abbrev Words8 := Vector Word 8

end Sys2Proof
end

