-- ==== Sys2Proof/Config.lean ====
section
/-! DEFINITION. The parameters of 00_scope.md R6, and the free values of the one point the spec leaves `OPEN` that a
run can meet: `RESET_DATA`, what the data registers hold after a reset (R6, R38, R240, 93_implementation_defined.md U3).
A free value has no body, so no proof can know it. What it depends on is the model's choice, DESIGN CHOICE (log 3): its
first argument is the instance of the chip, its second says which reset of that instance it belongs to, its third is the
index of the word. -/

namespace Sys2Proof.Config

/-- `BLOCK_BYTES`: a block is 64 bytes (R6). -/
abbrev blockBytes : Nat := 64

/-- `MAXBYTES`: the largest legal message has `2^61 - 1` bytes (R6, R123). -/
abbrev maxBytes : Nat := 2 ^ 61 - 1

/-- The largest value of `LEN`, `2^64 - 8`, at which `DATA` raises `InputTooLarge` (R30, R110, R187). -/
def maxLen : BitVec 64 := BitVec.ofNat 64 (2 ^ 64 - 8)

/-- `RESET_DATA` for `H[k]`: any value, another one after each reset of each instance (R6, R38). -/
opaque resetH : Nat → Nat → Nat → Word

/-- `RESET_DATA` for `R[k]` (R38). -/
opaque resetR : Nat → Nat → Nat → Word

/-- `RESET_DATA` for `W[t]` (R38). -/
opaque resetW : Nat → Nat → Nat → Word

end Sys2Proof.Config
end

