-- ==== Sys2Proof/Syntax.lean ====
section
/-! DEFINITION. The instructions: one constructor per row of spec/opcode_table.json, the six commands of
30_encoding.md R73 and the eight micro-operations of R79. -/

namespace Sys2Proof

/-- The rows of the opcode table. The operand of `RDH` and `RDX` is the whole 8-bit `arg` field (R70); that its
reserved bits are 0 (R71) is `Instr.wf`. -/
inductive Instr where
  /-- `INIT` (R186). -/
  | init
  /-- `DATA b` (R187). -/
  | data (b : Byte)
  /-- `FINAL` (R188). -/
  | final
  /-- `RDH k` (R189). -/
  | rdh (k : Byte)
  /-- `RDX j` (R190). -/
  | rdx (j : Byte)
  /-- `RDS` (R191). -/
  | rds
  /-- `PADT` (R124). -/
  | padt
  /-- `PADZ` (R125). -/
  | padz
  /-- `PADL` (R126). -/
  | padl
  /-- `SCHLD` (R141). -/
  | schld
  /-- `SCHEX` (R142). -/
  | schex
  /-- `LOAD` (R157). -/
  | load
  /-- `ROUND` (R158). -/
  | round
  /-- `FOLD` (R159). -/
  | fold
deriving DecidableEq, Repr

/-- What selects an instruction: a command word on the port (R70), or the phase code, which is the "opcode" of a
micro-operation (R78). -/
inductive InstrWord where
  /-- A 12-bit command word. -/
  | command (c : CmdWord)
  /-- A 4-bit phase code. -/
  | phase (p : PhaseCode)
deriving DecidableEq, Repr

/-- Why a word selects no instruction. -/
inductive DecodeError where
  /-- A command word with a reserved opcode (R75). -/
  | reservedOpcode (op : BitVec 4)
  /-- A command word with a legal opcode whose reserved operand bits are not all 0 (R76). -/
  | reservedOperand (arg : Byte)
  /-- The code of a host phase, in which no micro-operation is performed (R79). -/
  | hostPhase (p : PhaseCode)
  /-- A reserved phase code, 12 to 15 (R80). -/
  | reservedPhase (p : PhaseCode)
deriving DecidableEq, Repr

end Sys2Proof
end

