-- ==== Sys2Proof/Machine/State.lean ====
section
/-! DEFINITION. The state of one engine instance (spec/10_state.md R20 to R38), the host's input as plain data, the
reasons a step can stop, and the state right after reset. -/

namespace Sys2Proof.Machine

/-- The phases of R27 and R79. Codes 12 to 15 are never reached, and R80 asks that a model make them
unrepresentable. -/
inductive Phase where
  | idle | absorb | padt | padz | padl | schld | schex | load | round | fold | done | error
deriving DecidableEq, Repr

/-- The codes of `ERRC` and of a response's `st` (R32, R72, R215); code 3 never occurs. -/
inductive ErrCode where
  /-- 0: no error, `OK`. -/
  | ok
  /-- 1: `InputTooLarge`. -/
  | inputTooLarge
  /-- 2: `IllegalCommand`. -/
  | illegalCommand
deriving DecidableEq, Repr

/-- A response: its two fields (R72). `Response.word` is the 34-bit word. -/
structure Response where
  st : ErrCode
  data : Word
deriving DecidableEq, Repr

/-- What the environment does at one step: the value of `rst`, and whether the host drives `cmd_valid` (R185, R240).
`offer = true` presents the first word of `cmds`, if there is one (log 4, log 5). -/
structure PortEdge where
  rst : Bool
  offer : Bool
deriving DecidableEq, Repr

/-- The block buffer's bytes as address and byte, addresses strictly rising; an unlisted address has no value: nothing
has written that byte since reset (R38, log 2). -/
abbrev Memory := List Host.Cell

/-- The complete state (R20), the response history (R35), and the model's own input fields (log 3, log 4). -/
structure State where
  /-- Hash state `H[0..7]` (R21). -/
  H : Words8
  /-- Working registers `a..h` = `R[0..7]` (R22). -/
  R : Words8
  /-- Message schedule `W[0..63]` (R23). -/
  W : Vector Word 64
  /-- Block buffer `B[0..63]` (R24). -/
  B : Memory
  /-- Phase register (R27). -/
  PH : Phase
  /-- Index register, 7 bits (R28). -/
  T : BitVec 7
  /-- Fill counter, 7 bits (R29). -/
  N : BitVec 7
  /-- Length counter in bits (R30). -/
  LEN : BitVec 64
  /-- Resume register (R31). -/
  RS : Phase
  /-- Error code (R32). -/
  ERRC : ErrCode
  /-- The responses emitted so far, in emission order (R35). -/
  RSP : List Response
  /-- The command words the host still offers, in order; the first is the word on `cmd` (R185; log 4). -/
  cmds : List CmdWord
  /-- The environment at the coming steps; an unlisted step has `rst = 0` and the host offering (log 4). -/
  edges : List PortEdge
  /-- How many reset edges the run has had: an argument of the free values of `Config` (log 3). -/
  resets : Nat
  /-- Which instance of the chip this is: the other argument of the free values (log 3, log 10). No step changes or
  reads it otherwise. -/
  chipIndex : Nat
deriving DecidableEq, Repr

/-- Why the machine stops. Each constructor is an access to an element that the spec says does not exist or that has
no value; no state reachable from reset raises one (R38, R56, R194; `Safety.lean`). All are safe: the model stops. -/
inductive Fault where
  /-- Raised by `DATA`, `PADT`, `PADZ`, `PADL` when `N > 63`, and by `SCHLD` when `4T > 60`: `B` has the addresses 0
  to 63 only (R50, R56). Safe. -/
  | noSuchByte (addr : Nat)
  /-- Raised by `SCHLD` for a byte of `B` that nothing has written since reset: it has no value and a model treats a
  read of it as a fault (R38). Safe. -/
  | unwrittenByte (addr : Nat)
  /-- Raised by `SCHEX`, `ROUND` when an index of `W` or `K` is not 0 to 63, and by `SCHEX` when an index would be
  negative (R50). Safe. -/
  | noSuchWord (index : Nat)
  /-- Raised by `PADL` when `N` is not 56 to 63: the length suffix has the bytes 0 to 7 only (R53, R126). Safe. -/
  | noSuchSuffixByte (n : Nat)
deriving DecidableEq, Repr

/-- Why an instruction has no meaning. -/
inductive Refusal where
  /-- The instruction is not modelled yet. No arm of this model answers it. Safe. -/
  | notModelled (mnemonic : String)
deriving DecidableEq, Repr

/-- The state right after reset (R38, R240, R241). `H`, `R`, `W` hold 0: DESIGN CHOICE, the spec leaves them
unspecified (log 1). No byte of `B` has a value (R38, log 2). Nothing has been emitted and nothing is offered. -/
def State.reset : State where
  H := Vector.replicate 8 0
  R := Vector.replicate 8 0
  W := Vector.replicate 64 0
  B := []
  PH := .idle
  T := 0#7
  N := 0#7
  LEN := 0#64
  RS := .absorb
  ERRC := .ok
  RSP := []
  cmds := []
  edges := []
  resets := 0
  chipIndex := 0

end Sys2Proof.Machine
end

