-- ==== Sys2Proof/Machine/Operands.lean ====
section
/-! DEFINITION. The operand forms: a word assembled from four bytes of `B` (20_memory.md R52), a byte of the length
suffix (R53), a nibble of a hash word (R54). `arg` itself is split by the decoder (30_encoding.md R71); there are no
register operands and no addressing modes. -/

namespace Sys2Proof.Machine

/-- Big-endian assembly: the byte at the lower address is the more significant (R10, R52). -/
def assembleWord (b0 b1 b2 b3 : Byte) : Word := b0 ++ b1 ++ b2 ++ b3

/-- Byte `j` of the length suffix: `LEN[63-8j : 56-8j]`, for `0 ≤ j ≤ 7` (R53). -/
def lenByte (len : BitVec 64) (j : Nat) : Byte := len.extractLsb' (56 - 8 * j) 8

/-- Nibble `m` of a word, `m = 0` the most significant: `x[31-4m : 28-4m]`, for `0 ≤ m ≤ 7` (R54, R176). -/
def nibble (x : Word) (m : Nat) : BitVec 4 := x.extractLsb' (28 - 4 * m) 4

end Sys2Proof.Machine
end

