-- ==== Sys2Proof/Machine/Formatter.lean ====
section
/-! DEFINITION. The digest formatter (44_formatter.md R175 to R178): the combinational functions `RDX` applies to
`H`. -/

namespace Sys2Proof.Machine

/-- `nib(j)`: nibble `j mod 8` of word `j div 8` (R176). -/
def nib (Hs : Words8) (j : Fin 64) : BitVec 4 := nibble (Hs[j.val / 8]'(by omega)) (j.val % 8)

/-- `hexdigit(v)`, the lowercase hexadecimal digit (R177). -/
def hexDigit (v : BitVec 4) : Char :=
  match v.toNat with
  | 0 => '0'
  | 1 => '1'
  | 2 => '2'
  | 3 => '3'
  | 4 => '4'
  | 5 => '5'
  | 6 => '6'
  | 7 => '7'
  | 8 => '8'
  | 9 => '9'
  | 10 => 'a'
  | 11 => 'b'
  | 12 => 'c'
  | 13 => 'd'
  | 14 => 'e'
  | _ => 'f'

/-- `code(v)`: `0x30 + v` for `v ≤ 9`, `0x57 + v` above (R177). -/
def hexCode (v : BitVec 4) : Byte :=
  if v.toNat ≤ 9 then 0x30 + v.setWidth 8 else 0x57 + v.setWidth 8

/-- `hexchar(Hs, j) = code(nib(j))`, what `RDX j` returns (R178). -/
def hexChar (Hs : Words8) (j : Fin 64) : Byte := hexCode (nib Hs j)

/-- `hex(Hs)`: the 64 characters of the digest, `j = 0` first (R176). -/
def hex (Hs : Words8) : List Char := (List.finRange 64).map fun j => hexDigit (nib Hs j)

/-- `digest_bytes[4k + i] = H[k][31 - 8i : 24 - 8i]`: the digest as 32 bytes (R175). -/
def digestBytes (Hs : Words8) : List Byte :=
  (List.finRange 32).map fun i =>
    (Hs[i.val / 4]'(by omega)).extractLsb' (24 - 8 * (i.val % 4)) 8

end Sys2Proof.Machine
end

