-- ==== Sys2Proof/Machine/Phases.lean ====
section
/-! DEFINITION. The phase codes and the two kinds of phase (10_state.md R27, 30_encoding.md R79). -/

namespace Sys2Proof.Machine

/-- The 4-bit code of a phase (R79). -/
def Phase.code : Phase → PhaseCode
  | .idle => 0
  | .absorb => 1
  | .padt => 2
  | .padz => 3
  | .padl => 4
  | .schld => 5
  | .schex => 6
  | .load => 7
  | .round => 8
  | .fold => 9
  | .done => 10
  | .error => 11

/-- Host phases: the host steps (R27, R79). The other eight are engine phases. -/
def Phase.isHost : Phase → Bool
  | .idle => true
  | .absorb => true
  | .padt => false
  | .padz => false
  | .padl => false
  | .schld => false
  | .schex => false
  | .load => false
  | .round => false
  | .fold => false
  | .done => true
  | .error => true

/-- The phase with a code; codes 12 to 15 are no phase (R80). -/
def phaseOfCode (p : PhaseCode) : Option Phase :=
  match p.toNat with
  | 0 => some .idle
  | 1 => some .absorb
  | 2 => some .padt
  | 3 => some .padz
  | 4 => some .padl
  | 5 => some .schld
  | 6 => some .schex
  | 7 => some .load
  | 8 => some .round
  | 9 => some .fold
  | 10 => some .done
  | 11 => some .error
  | _ => none

end Sys2Proof.Machine
end

