-- ==== Sys2Proof/Machine/Flags.lean ====
section
/-! DEFINITION. The engine has no condition codes (10_state.md R34): its only status bits are `ERRC` and `DV`, seen
through `STATUS` (R33) and a response's `st` (30_encoding.md R72). -/

namespace Sys2Proof.Machine

/-- The 2-bit code of an error, as `ERRC` and as `st` (R32, R72, R215). -/
def ErrCode.code : ErrCode → BitVec 2
  | .ok => 0
  | .inputTooLarge => 1
  | .illegalCommand => 2

/-- `DV`: digest valid, 1 exactly when `PH = DONE` (R33). -/
def digestValid (s : State) : BitVec 1 := if s.PH = .done then 1 else 0

/-- `STATUS = zext_32({N[6:0], 0b0, DV, ERRC[1:0], PH[3:0]})` (R33). -/
def status (s : State) : Word :=
  (s.N ++ (0 : BitVec 1) ++ digestValid s ++ s.ERRC.code ++ s.PH.code).setWidth 32

/-- The 34-bit response word: `st` in bits 33:32, `data` in bits 31:0 (R72). -/
def Response.word (r : Response) : RspWord := r.st.code ++ r.data

end Sys2Proof.Machine
end

