-- ==== Sys2Proof/Machine/Ops.lean ====
section
/-! DEFINITION. The named operations the meanings share: the block buffer (00_scope.md R10, 20_memory.md R50 to R58),
the indexed word arrays, responses (45_commands.md R192), taking an exception (60_exceptions.md R219), and the
sequencer's moves (41_padder.md R127, 10_state.md R28). An operation that may meet an element that does not exist
answers `Except Fault`. -/

namespace Sys2Proof.Machine

/-! ### The block buffer -/

/-- The byte at an address of `B`, if it has a value. -/
def Memory.read : Memory → Nat → Option Byte
  | [], _ => none
  | c :: m, a => if c.1 = a then some c.2 else Memory.read m a

/-- `B` with one byte replaced or added, in address order. -/
def Memory.write : Memory → Nat → Byte → Memory
  | [], a, v => [(a, v)]
  | c :: m, a, v =>
    if a < c.1 then (a, v) :: c :: m
    else if a = c.1 then (a, v) :: m
    else c :: Memory.write m a v

/-- Addresses strictly rising. -/
def Memory.rising : Memory → Bool
  | [] => true
  | [_] => true
  | c :: d :: m => c.1 < d.1 && Memory.rising (d :: m)

/-- The canonical form: addresses strictly rising, all of them 0 to 63 (R50). An unlisted address has no value, so no
entry can equal it. -/
def Memory.wf (m : Memory) : Bool := m.rising && m.all fun c => c.1 < Config.blockBytes

/-- `MemRead(addr, 1)`, for `0 ≤ addr ≤ 63` (R10). A byte nothing has written has no value (R38, log 2). -/
def memRead1 (m : Memory) (addr : Nat) : Except Fault Byte :=
  if addr < Config.blockBytes then
    match m.read addr with
    | some v => .ok v
    | none => .error (.unwrittenByte addr)
  else .error (.noSuchByte addr)

/-- `MemRead(4i, 4)`: the aligned big-endian word at word index `i`, for `0 ≤ i ≤ 15` (R10, R52, R56). -/
def memRead4 (m : Memory) (i : Nat) : Except Fault Word := do
  let b0 ← memRead1 m (4 * i)
  let b1 ← memRead1 m (4 * i + 1)
  let b2 ← memRead1 m (4 * i + 2)
  let b3 ← memRead1 m (4 * i + 3)
  return assembleWord b0 b1 b2 b3

/-- `MemWrite(addr, 1, v)`, for `0 ≤ addr ≤ 63` (R10). -/
def memWrite1 (m : Memory) (addr : Nat) (v : Byte) : Except Fault Memory :=
  if addr < Config.blockBytes then .ok (m.write addr v) else .error (.noSuchByte addr)

/-! ### The word arrays `W` and `K` -/

/-- Element `i` of a 64-word array, for `0 ≤ i ≤ 63` (R50). -/
def readWord (v : Vector Word 64) (i : Nat) : Except Fault Word :=
  if h : i < 64 then .ok v[i] else .error (.noSuchWord i)

/-- `W[T - d]`, a tap of the recurrence (R142): the index must not be negative. -/
def readTap (s : State) (d : Nat) : Except Fault Word :=
  if d ≤ s.T.toNat then readWord s.W (s.T.toNat - d) else .error (.noSuchWord s.T.toNat)

/-- `W[T] <- w` (R141, R142). -/
def writeW (w : Word) (s : State) : Except Fault State :=
  if h : s.T.toNat < 64 then .ok { s with W := s.W.set s.T.toNat w } else .error (.noSuchWord s.T.toNat)

/-! ### Responses and exceptions -/

/-- Emits one response in this step (R35, R192). -/
def respond (st : ErrCode) (data : Word) (s : State) : State :=
  { s with RSP := s.RSP ++ [{ st := st, data := data }] }

/-- Taking an exception, `raise E` (R11, R219): the first cause is kept, the phase becomes `ERROR`, the response carries
the code, and nothing else changes. Nothing is saved and control goes to no handler. There is no return (R221): `ERROR`
is left by `INIT` (`execInit`) or by reset (`resetEdge`) only. -/
def raise (c : ErrCode) (s : State) : State :=
  respond c 0#32 (if s.PH = .error then s else { s with ERRC := c, PH := .error })

/-! ### The sequencer -/

/-- The block is complete: compress it, then resume in phase `r` (R127, R187). -/
def blockComplete (r : Phase) (s : State) : State := { s with PH := .schld, RS := r, T := 0#7 }

/-- `B[N] <- v; N <- N + 1`, common to `DATA`, `PADT`, `PADZ` and `PADL` (R29). -/
def appendByte (v : Byte) (s : State) : Except Fault State := do
  let b ← memWrite1 s.B s.N.toNat v
  return { s with B := b, N := s.N + 1#7 }

/-- `next_after_append(n, r)`, with `n` the new `N` (R127). -/
def nextAfterAppend (r : Phase) (s : State) : State :=
  if s.N = 64#7 then blockComplete r s
  else if s.N = 56#7 then { s with PH := .padl }
  else { s with PH := .padz }

/-- After an append that belongs to the message or to the suffix: the block is complete at `N = 64`, else the phase is
`p` (R126, R187). -/
def nextAfterByte (r p : Phase) (s : State) : State :=
  if s.N = 64#7 then blockComplete r s else { s with PH := p }

/-- `T <- T + 1`; at the limit the phase is `next`, before it `same` (R141, R142, R158). -/
def advance (limit : BitVec 7) (next same : Phase) (s : State) : State :=
  { s with T := s.T + 1#7, PH := if s.T + 1#7 = limit then next else same }

/-! ### Outcomes -/

/-- The outcome of an operation that may fault. -/
def finish : Except Fault State → Host.Outcome State Fault Refusal
  | .ok t => .next t
  | .error f => .fault f

end Sys2Proof.Machine
end

