-- ==== Sys2Proof/Machine/Commands.lean ====
section
/-! DEFINITION. The six commands (45_commands.md R186 to R192, R197). A command that raises has no effect but the
exception's (60_exceptions.md R219). -/

namespace Sys2Proof.Machine

/-- `INIT`, legal in every host phase (R186). -/
def execInit (s : State) : Host.Outcome State Fault Refusal :=
  .next (respond .ok 0#32
    { s with H := IV, LEN := 0#64, N := 0#7, T := 0#7, RS := .absorb, ERRC := .ok, PH := .absorb })

/-- `DATA b`, legal only in `ABSORB`; `InputTooLarge` is tested after the phase (R187, R218). -/
def execData (b : Byte) (s : State) : Host.Outcome State Fault Refusal :=
  if s.PH ≠ .absorb then .next (raise .illegalCommand s)
  else if s.LEN = Config.maxLen then .next (raise .inputTooLarge s)
  else finish (do
    let t ← appendByte b s
    return respond .ok 0#32 (nextAfterByte .absorb .absorb { t with LEN := t.LEN + 8#64 }))

/-- `FINAL`, legal only in `ABSORB` (R188). -/
def execFinal (s : State) : Host.Outcome State Fault Refusal :=
  if s.PH ≠ .absorb then .next (raise .illegalCommand s)
  else .next (respond .ok 0#32 { s with PH := .padt })

/-- `RDH k`, legal only in `DONE`, `k` from 0 to 7 (R189). -/
def execRdh (k : Byte) (s : State) : Host.Outcome State Fault Refusal :=
  if s.PH ≠ .done then .next (raise .illegalCommand s)
  else if h : k.toNat < 8 then .next (respond .ok s.H[k.toNat] s)
  else .next (raise .illegalCommand s)

/-- `RDX j`, legal only in `DONE`, `j` from 0 to 63 (R190). -/
def execRdx (j : Byte) (s : State) : Host.Outcome State Fault Refusal :=
  if s.PH ≠ .done then .next (raise .illegalCommand s)
  else if h : j.toNat < 64 then .next (respond .ok ((hexChar s.H ⟨j.toNat, h⟩).setWidth 32) s)
  else .next (raise .illegalCommand s)

/-- `RDS`, legal in every host phase (R191). -/
def execRds (s : State) : Host.Outcome State Fault Refusal :=
  .next (respond .ok (status s) s)

end Sys2Proof.Machine
end

