-- ==== Sys2Proof/Machine/Datapath.lean ====
section
/-! DEFINITION. The word operations of 40_word_ops.md: the 32-bit adder and rotator and the six SHA-256 functions. Pure
functions on words; none writes a flag or raises (R111). -/

namespace Sys2Proof.Machine

/-- `ADD32`: addition modulo 2^32, the carry out is discarded (R100). -/
def add32 (x y : Word) : Word := x + y

/-- `rotr(x, n) = ((x >> n) OR (x << (32 - n))) mod 2^32`, for `1 ≤ n ≤ 31` (R101). -/
def rotr (x : Word) (n : Nat) : Word := (x >>> n) ||| (x <<< (32 - n))

/-- `x >> n`, the logical right shift (R102). -/
def shr (x : Word) (n : Nat) : Word := x >>> n

/-- `Ch(x, y, z) = (x AND y) XOR (NOT x AND z)` (R104). -/
def ch (x y z : Word) : Word := (x &&& y) ^^^ (~~~x &&& z)

/-- `Maj(x, y, z) = (x AND y) XOR (x AND z) XOR (y AND z)` (R105). -/
def maj (x y z : Word) : Word := (x &&& y) ^^^ (x &&& z) ^^^ (y &&& z)

/-- `Σ0`, `BSIG0` (R106). -/
def bsig0 (x : Word) : Word := rotr x 2 ^^^ rotr x 13 ^^^ rotr x 22

/-- `Σ1`, `BSIG1` (R107). -/
def bsig1 (x : Word) : Word := rotr x 6 ^^^ rotr x 11 ^^^ rotr x 25

/-- `σ0`, `SSIG0` (R108). -/
def ssig0 (x : Word) : Word := rotr x 7 ^^^ rotr x 18 ^^^ shr x 3

/-- `σ1`, `SSIG1` (R109). -/
def ssig1 (x : Word) : Word := rotr x 17 ^^^ rotr x 19 ^^^ shr x 10

end Sys2Proof.Machine
end

