-- ==== Sys2Proof/Machine/Functions.lean ====
section
/-! DEFINITION. The normative functions of a message, a block and a round: `pad`, `blocks` (41_padder.md R120 to R123),
`schedule` (42_scheduler.md R140), `round`, `compress`, `sha256`, `digest` (43_compression.md R155, R156, R161). The
micro-operation `ROUND` calls `round`; the other functions are what the micro-operations are proved to compute. -/

namespace Sys2Proof.Machine

/-! ### Padding and blocks -/

/-- `z`, the number of zero bytes for a message of `L` bytes: `(55 - L) mod 64` (R120). -/
def padZeros (L : Nat) : Nat := (119 - L % 64) % 64

/-- `BE64(v)`: the eight bytes of `v`, most significant first (R120). -/
def be64 (v : BitVec 64) : List Byte := (List.range 8).map fun j => v.extractLsb' (56 - 8 * j) 8

/-- `pad(M)`; not defined for `2^61` bytes or more (R120, R123). -/
def pad (M : List Byte) : Option (List Byte) :=
  if M.length ≤ Config.maxBytes then
    some (M ++ 0x80 :: List.replicate (padZeros M.length) 0x00 ++ be64 (BitVec.ofNat 64 (8 * M.length)))
  else none

/-- `blocks(P)`: block `q` is the bytes `P[64q]` to `P[64q + 63]`, for `0 ≤ q < len(P) / 64` (R122). -/
def blocks (P : List Byte) : List (List Byte) :=
  (List.range (P.length / 64)).map fun q => (P.drop (64 * q)).take 64

/-! ### The schedule -/

/-- The big-endian words of a byte sequence, four bytes each: `W[0..15]` of a block (R140). -/
def wordsOf : List Byte → List Word
  | b0 :: b1 :: b2 :: b3 :: rest => (b0 ++ b1 ++ b2 ++ b3) :: wordsOf rest
  | _ => []

/-- `W[i]` from the words before it, `i` being how many there are:
`SSIG0(W[i-15]) + W[i-16] + SSIG1(W[i-2]) + W[i-7]` (R140). Used for `i ≥ 16` only, where all four exist. -/
def nextScheduleWord (ws : List Word) : Word :=
  add32 (add32 (add32 (ssig0 (ws.getD (ws.length - 15) 0)) (ws.getD (ws.length - 16) 0))
    (ssig1 (ws.getD (ws.length - 2) 0))) (ws.getD (ws.length - 7) 0)

/-- `n` more words by the recurrence, for increasing `i` (R140). -/
def extendSchedule : Nat → List Word → List Word
  | 0, ws => ws
  | n + 1, ws => extendSchedule n (ws ++ [nextScheduleWord ws])

/-- `schedule(blk)`: 16 words of the block and 48 by the recurrence (R140). -/
def schedule (blk : List Byte) : List Word := extendSchedule 48 (wordsOf blk)

/-! ### Compression -/

/-- One round with round constant `k` and schedule word `w` on `(a, b, c, d, e, f, g, h)`, every right-hand side taken
before the round (R155). -/
def roundWith (k w : Word) (r : Words8) : Words8 :=
  let t1 := add32 (add32 (add32 (add32 r[7] (bsig1 r[4])) (ch r[4] r[5] r[6])) k) w
  let t2 := add32 (bsig0 r[0]) (maj r[0] r[1] r[2])
  #v[add32 t1 t2, r[0], r[1], r[2], add32 r[3] t1, r[4], r[5], r[6]]

/-- `round(t, (a..h), w)`, for `0 ≤ t ≤ 63` (R155). -/
def round (t : Fin 64) (r : Words8) (w : Word) : Words8 := roundWith K[t] w r

/-- Component-wise addition of eight words, order `a, b, ..., h` (R111 (f), R156). -/
def add8 (x y : Words8) : Words8 := Vector.ofFn fun k => add32 x[k] y[k]

/-- `compress(Hin, blk)`: 64 rounds from `Hin` over the schedule, then the fold (R156). -/
def compress (Hin : Words8) (blk : List Byte) : Words8 :=
  add8 Hin (((List.finRange 64).zip (schedule blk)).foldl (fun r p => round p.1 r p.2) Hin)

/-- `sha256(M)`, where `pad(M)` is defined (R161). -/
def sha256 (M : List Byte) : Option Words8 := (pad M).map fun P => (blocks P).foldl compress IV

/-- `digest(M) = hex(sha256(M))`; `none` is the failure `InputTooLarge` (R3, R123, R161). -/
def digest (M : List Byte) : Option (List Char) := (sha256 M).map hex

end Sys2Proof.Machine
end

