-- ==== Sys2Proof/Machine/Compression.lean ====
section
/-! DEFINITION. The compression engine's micro-operations (43_compression.md R157 to R159). -/

namespace Sys2Proof.Machine

/-- `LOAD`: `R[k] <- H[k]`, `T <- 0` (R157). -/
def execLoad (s : State) : Host.Outcome State Fault Refusal :=
  .next { s with R := s.H, T := 0#7, PH := .round }

/-- `ROUND`: one compression round with index `T`; after `T = 63` the fold follows (R158). -/
def execRound (s : State) : Host.Outcome State Fault Refusal :=
  finish (do
    let w ← readWord s.W s.T.toNat
    let k ← readWord K s.T.toNat
    return advance 64#7 .fold .round { s with R := roundWith k w s.R })

/-- `FOLD`: `H[k] <- H[k] + R[k]`, `N <- 0`, `T <- 0`, `PH <- RS` (R159). -/
def execFold (s : State) : Host.Outcome State Fault Refusal :=
  .next { s with H := add8 s.H s.R, N := 0#7, T := 0#7, PH := s.RS }

end Sys2Proof.Machine
end

