-- ==== Sys2Proof/Machine/Padder.lean ====
section
/-! DEFINITION. The padder's micro-operations (41_padder.md R124 to R127). -/

namespace Sys2Proof.Machine

/-- `PADT`: append the terminator `0x80` (R124). -/
def execPadt (s : State) : Host.Outcome State Fault Refusal :=
  finish (do
    let t ← appendByte 0x80#8 s
    return nextAfterAppend .padz t)

/-- `PADZ`: append one zero byte (R125). -/
def execPadz (s : State) : Host.Outcome State Fault Refusal :=
  finish (do
    let t ← appendByte 0x00#8 s
    return nextAfterAppend .padz t)

/-- Byte `N - 56` of the length suffix, for `56 ≤ N ≤ 63` (R126). -/
def suffixByte (s : State) : Except Fault Byte :=
  if 56 ≤ s.N.toNat ∧ s.N.toNat ≤ 63 then .ok (lenByte s.LEN (s.N.toNat - 56))
  else .error (.noSuchSuffixByte s.N.toNat)

/-- `PADL`: append one byte of the length suffix, most significant first (R126). -/
def execPadl (s : State) : Host.Outcome State Fault Refusal :=
  finish (do
    let v ← suffixByte s
    let t ← appendByte v s
    return nextAfterByte .done .padl t)

end Sys2Proof.Machine
end

