-- ==== Sys2Proof/Machine/Scheduler.lean ====
section
/-! DEFINITION. The scheduler's micro-operations (42_scheduler.md R141, R142). -/

namespace Sys2Proof.Machine

/-- `SCHLD`: `W[T] <- MemRead(4T, 4)`; after `T = 15` the expansion starts (R141). -/
def execSchld (s : State) : Host.Outcome State Fault Refusal :=
  finish (do
    let w ← memRead4 s.B s.T.toNat
    let t ← writeW w s
    return advance 16#7 .schex .schld t)

/-- `SCHEX`: `W[T] <- SSIG0(W[T-15]) + W[T-16] + SSIG1(W[T-2]) + W[T-7]`; after `T = 63` the schedule is whole
(R142). -/
def execSchex (s : State) : Host.Outcome State Fault Refusal :=
  finish (do
    let w15 ← readTap s 15
    let w16 ← readTap s 16
    let w2 ← readTap s 2
    let w7 ← readTap s 7
    let t ← writeW (add32 (add32 (add32 (ssig0 w15) w16) (ssig1 w2)) w7) s
    return advance 64#7 .load .schex t)

end Sys2Proof.Machine
end

