-- ==== Sys2Proof/Machine/Dispatch.lean ====
section
/-! DEFINITION. One arm per instruction of spec/opcode_table.json. -/

namespace Sys2Proof.Machine

def exec (i : Instr) (s : State) : Host.Outcome State Fault Refusal :=
  match i with
  | .init => Sys2Proof.Machine.execInit s
  | .data b => Sys2Proof.Machine.execData b s
  | .final => Sys2Proof.Machine.execFinal s
  | .rdh k => Sys2Proof.Machine.execRdh k s
  | .rdx j => Sys2Proof.Machine.execRdx j s
  | .rds => Sys2Proof.Machine.execRds s
  | .padt => Sys2Proof.Machine.execPadt s
  | .padz => Sys2Proof.Machine.execPadz s
  | .padl => Sys2Proof.Machine.execPadl s
  | .schld => Sys2Proof.Machine.execSchld s
  | .schex => Sys2Proof.Machine.execSchex s
  | .load => Sys2Proof.Machine.execLoad s
  | .round => Sys2Proof.Machine.execRound s
  | .fold => Sys2Proof.Machine.execFold s

end Sys2Proof.Machine
end

