-- ==== Sys2Proof/WellFormed.lean ====
section
/-! DEFINITION. Which instructions the encodings admit (30_encoding.md R71): the only conditions are the reserved
operand bits of `RDH` and `RDX`. -/

namespace Sys2Proof

/-- `RDH`'s index is 0 to 7 and `RDX`'s is 0 to 63 (R71); every other instruction has no condition. -/
def Instr.wf : Instr → Bool
  | .init => true
  | .data _ => true
  | .final => true
  | .rdh k => k.toNat ≤ 7
  | .rdx j => j.toNat ≤ 63
  | .rds => true
  | .padt => true
  | .padz => true
  | .padl => true
  | .schld => true
  | .schex => true
  | .load => true
  | .round => true
  | .fold => true

end Sys2Proof
end

