-- ==== Sys2Proof/Decode.lean ====
section
/-! DEFINITION. Decoding and encoding: command words by 30_encoding.md R70 to R77, phase codes by R78 to R80. The
decoder is total and rejects by name. -/

namespace Sys2Proof

/-- `op = cmd[11:8]` (R70). -/
def opField (c : CmdWord) : BitVec 4 := c.extractLsb' 8 4

/-- `arg = cmd[7:0]` (R70). -/
def argField (c : CmdWord) : Byte := c.extractLsb' 0 8

/-- `cmd[2:0]`, the operand `k` of `RDH` (R71). -/
def kField (c : CmdWord) : Byte := (c.extractLsb' 0 3).setWidth 8

/-- `cmd[5:0]`, the operand `j` of `RDX` (R71). -/
def jField (c : CmdWord) : Byte := (c.extractLsb' 0 6).setWidth 8

/-- `c` is the command of the row with this mask and this match when `(c AND mask) = match` (R73). -/
def rowMatches (mask row : CmdWord) (c : CmdWord) : Bool := c &&& mask == row

/-- The reserved opcodes: 0x0 and 0x7 to 0xF (R75). -/
def opReserved (op : BitVec 4) : Bool := op == 0 || 7 ≤ op.toNat

/-- The rows of R73 in the table's order; a word of no row is illegal, by its opcode (R75) or by its reserved
operand bits (R76). -/
def decodeCommand (c : CmdWord) : Except DecodeError Instr :=
  if rowMatches 0xFFF 0x100 c then .ok .init
  else if rowMatches 0xF00 0x200 c then .ok (.data (argField c))
  else if rowMatches 0xFFF 0x300 c then .ok .final
  else if rowMatches 0xFF8 0x400 c then .ok (.rdh (kField c))
  else if rowMatches 0xFC0 0x500 c then .ok (.rdx (jField c))
  else if rowMatches 0xFFF 0x600 c then .ok .rds
  else if opReserved (opField c) then .error (.reservedOpcode (opField c))
  else .error (.reservedOperand (argField c))

/-- The micro-operation a phase code selects (R79); host phases select none, codes 12 to 15 are reserved (R80). -/
def decodePhase (p : PhaseCode) : Except DecodeError Instr :=
  match p.toNat with
  | 2 => .ok .padt
  | 3 => .ok .padz
  | 4 => .ok .padl
  | 5 => .ok .schld
  | 6 => .ok .schex
  | 7 => .ok .load
  | 8 => .ok .round
  | 9 => .ok .fold
  | 0 | 1 | 10 | 11 => .error (.hostPhase p)
  | _ => .error (.reservedPhase p)

/-- Decoding of either kind of word. -/
def decode : InstrWord → Except DecodeError Instr
  | .command c => decodeCommand c
  | .phase p => decodePhase p

/-- A command word from its two fields: `(op << 8) | arg` (R70, R81). -/
def commandWord (op : BitVec 4) (arg : Byte) : CmdWord := op ++ arg

/-- The word that selects an instruction (R73, R79). -/
def encode : Instr → InstrWord
  | .init => .command (commandWord 0x1 0x00)
  | .data b => .command (commandWord 0x2 b)
  | .final => .command (commandWord 0x3 0x00)
  | .rdh k => .command (commandWord 0x4 k)
  | .rdx j => .command (commandWord 0x5 j)
  | .rds => .command (commandWord 0x6 0x00)
  | .padt => .phase 2
  | .padz => .phase 3
  | .padl => .phase 4
  | .schld => .phase 5
  | .schex => .phase 6
  | .load => .phase 7
  | .round => .phase 8
  | .fold => .phase 9

/-- The table's numbering of bits as one of the two kinds of word: a row of at most 8 bits is a phase code (4 bits),
a longer one a command word (12 bits); bits above the row's width must be 0 (log 16). -/
def tableWord (nbits w : Nat) : Option InstrWord :=
  if nbits ≤ 8 then
    if w < 16 then some (.phase (BitVec.ofNat 4 w)) else none
  else if w < 4096 then some (.command (BitVec.ofNat 12 w)) else none

/-- The instruction the decoder reads from an opcode-table word. -/
def decodeTableWord (nbits w : Nat) : Option Instr :=
  match tableWord nbits w with
  | some x => (decode x).toOption
  | none => none

end Sys2Proof
end

