-- ==== Sys2Proof/Machine/Fetch.lean ====
section
/-! DEFINITION. Which step is next (00_scope.md R12, 30_encoding.md R74, R78, 45_commands.md R185, R194): the inputs at
the coming edge, the command port's handshake, and the selection of a command by its word or of a micro-operation by
the phase code. Also where a table word is placed so that the next step runs it (log 4). -/

namespace Sys2Proof.Machine

/-- The inputs of the coming step: the first of `edges`, or `rst = 0` and the host offering (log 4). -/
def State.edge (s : State) : PortEdge :=
  match s.edges with
  | [] => { rst := false, offer := true }
  | e :: _ => e

/-- The state with that edge used up. -/
def State.nextEdge (s : State) : State := { s with edges := s.edges.tail }

/-- The state with that edge and the presented word used up. -/
def State.takeCommand (s : State) : State := { s with cmds := s.cmds.tail, edges := s.edges.tail }

/-- The port `rst` (R185). -/
def State.rst (s : State) : Bool := s.edge.rst

/-- The port `cmd_ready`: 1 exactly when `PH` is a host phase (R185). -/
def State.cmdReady (s : State) : Bool := s.PH.isHost

/-- The word on `cmd` when `cmd_valid = 1`, and nothing when `cmd_valid = 0` (R185). -/
def State.cmdPort (s : State) : Option CmdWord := if s.edge.offer then s.cmds.head? else none

/-- The port `cmd_valid` (R185). -/
def State.cmdValid (s : State) : Bool := s.cmdPort.isSome

/-- What a step is: each alternative carries the state the step starts from, its inputs used up. -/
inductive StepEvent where
  /-- A reset edge (R240). -/
  | reset (s : State)
  /-- No agent steps: a host phase and no command presented (R12, R230). -/
  | idle (s : State)
  /-- An accepted command, or the engine's micro-operation. -/
  | run (i : Instr) (s : State)
  /-- An accepted command word that matches no row (R75, R76). -/
  | illegalWord (s : State)
deriving DecidableEq, Repr

/-- The command port in a host phase: the presented word is accepted, or nothing is presented (R185). -/
def acceptCommand (s : State) : StepEvent :=
  match s.cmdPort with
  | none => .idle s.nextEdge
  | some c =>
    match decodeCommand c with
    | .ok i => .run i s.takeCommand
    | .error _ => .illegalWord s.takeCommand

/-- Reset wins over everything (R218, R240); in an engine phase the engine steps and a presented command is held
(R185, R194); in a host phase the port accepts. -/
def nextEvent (s : State) : StepEvent :=
  if s.rst then .reset s.nextEdge
  else
    match decodePhase s.PH.code with
    | .ok i => .run i s.nextEdge
    | .error _ => acceptCommand s

/-! ### Placing a table word -/

/-- The coming edge is a plain one: no reset, the host offering. -/
def plainEdge (s : State) : State := { s with edges := { rst := false, offer := true } :: s.edges }

/-- The command word is presented first, in a host phase: the phase is kept if it is one, else it becomes `IDLE`. -/
def placeCommand (c : CmdWord) (s : State) : State :=
  { plainEdge s with cmds := c :: s.cmds, PH := if s.PH.isHost then s.PH else .idle }

/-- Bytes of `B` without a value become 0, so that the buffer holds a whole block. -/
def fillBlock (m : Memory) : Memory := (List.range Config.blockBytes).map fun a => (a, (m.read a).getD 0)

/-- `x` if it is from `lo` to `hi`, else `lo`. -/
def within (lo hi : Nat) (x : BitVec 7) : BitVec 7 :=
  if lo ≤ x.toNat ∧ x.toNat ≤ hi then x else BitVec.ofNat 7 lo

/-- The registers a micro-operation's guard speaks of, brought into the guard where they are outside it (R124, R125,
R126, R141, R142, R157, R158, R159). -/
def withGuard (p : Phase) (s : State) : State :=
  match p with
  | .padt => { s with N := within 0 63 s.N }
  | .padz => { s with N := if s.N = 56#7 then 0#7 else within 0 63 s.N }
  | .padl => { s with N := within 56 63 s.N }
  | .schld => { s with N := 64#7, T := within 0 15 s.T, B := fillBlock s.B }
  | .schex => { s with N := 64#7, T := within 16 63 s.T }
  | .load => { s with N := 64#7, T := 64#7 }
  | .round => { s with N := 64#7, T := within 0 63 s.T }
  | .fold => { s with N := 64#7, T := 64#7 }
  | .idle => s
  | .absorb => s
  | .done => s
  | .error => s

/-- The micro-operation of a phase code is selected, its guard holding. -/
def placeMicroOp (p : PhaseCode) (s : State) : State :=
  match phaseOfCode p with
  | some q => withGuard q { plainEdge s with PH := q }
  | none => s

/-- A table word placed where the next step takes its instruction from. -/
def placeWord (x : InstrWord) (s : State) : State :=
  match x with
  | .command c => placeCommand c s
  | .phase p => placeMicroOp p s

end Sys2Proof.Machine
end

