-- ==== Sys2Proof/Machine/Reset.lean ====
section
/-! DEFINITION. The reset edge (70_reset_and_hazards.md R240). -/

namespace Sys2Proof.Machine

/-- What an edge with `rst = 1` does, whatever the phase (R240): the control state takes the values of R38; `H`, `R`,
`W` hold free values and no byte of `B` has a value (R38, log 2). Nothing is emitted, what was emitted stays (R35), and
a presented command stays presented. DESIGN CHOICE (log 3, log 10): `RESET_DATA` is open at each reset of each instance
(R6, R66), and the free values are functions of the instance, of how many resets it has had, and of the word's index, so
that two states equal in `chipIndex` and `resets` hold the same `H`, `R`, `W` after the edge. -/
def resetEdge (s : State) : State :=
  { s with
    H := Vector.ofFn fun k => Config.resetH s.chipIndex s.resets k.val
    R := Vector.ofFn fun k => Config.resetR s.chipIndex s.resets k.val
    W := Vector.ofFn fun t => Config.resetW s.chipIndex s.resets t.val
    B := []
    PH := .idle
    T := 0#7
    N := 0#7
    LEN := 0#64
    RS := .absorb
    ERRC := .ok
    resets := s.resets + 1 }

end Sys2Proof.Machine
end

