-- ==== Sys2Proof/Machine/Step.lean ====
section
/-! DEFINITION. One step of the machine: a reset, a command accepted on the port, one micro-operation of the engine, or
an edge on which no agent steps (00_scope.md R12). The model is untimed (70_reset_and_hazards.md R249, log 6). -/

namespace Sys2Proof.Machine

/-- The step (R12, R74, R185, R194, R240). -/
def step (s : State) : Host.Outcome State Fault Refusal :=
  match nextEvent s with
  | .reset t => .next (resetEdge t)
  | .idle t => .next t
  | .run i t => exec i t
  | .illegalWord t => .next (raise .illegalCommand t)

/-- `s` with a table word placed so that the next step runs it (log 4); a word too wide for its row is not placed. -/
def State.withFetchWord (s : State) (nbits w : Nat) : State :=
  match tableWord nbits w with
  | some x => placeWord x s
  | none => s

end Sys2Proof.Machine
end

