-- ==== Sys2Proof/Machine/Assembler.lean ====
section
/-! DEFINITION. The assembler notation of 30_encoding.md R81 and the pseudo-commands of R82, from a parsed line on: the
text of a line (spelling of numbers, comments) is not modelled (log 15). -/

namespace Sys2Proof.Machine

/-- A command line: its mnemonic and its operand, any number (R81). -/
inductive AsmLine where
  | init
  | data (v : Nat)
  | final
  | rdh (v : Nat)
  | rdx (v : Nat)
  | rds
deriving DecidableEq, Repr

/-- A pseudo-command line (R82). -/
inductive Pseudo where
  | msg (text : List Char)
  | msgx (bytes : List Nat)
  | msgrep (b n : Nat)
  | rdhall
  | rdxall
  | hash (text : List Char)
deriving DecidableEq, Repr

/-- `(op << 8) | arg`; an operand above `limit` is an assembly error (R81). -/
def asmWord (op : BitVec 4) (limit v : Nat) : Option CmdWord :=
  if v ≤ limit then some (commandWord op (BitVec.ofNat 8 v)) else none

/-- The encoding of a command line, `none` for an assembly error (R81). -/
def AsmLine.word : AsmLine → Option CmdWord
  | .init => asmWord 0x1 0 0
  | .data v => asmWord 0x2 255 v
  | .final => asmWord 0x3 0 0
  | .rdh v => asmWord 0x4 7 v
  | .rdx v => asmWord 0x5 63 v
  | .rds => asmWord 0x6 0 0

/-- `MSG "text"`: one `DATA` per character, its 7-bit ASCII code (R82); a character without one is an error. -/
def msgLines (text : List Char) : Option (List AsmLine) :=
  text.mapM fun c => if c.toNat < 128 then some (.data c.toNat) else none

/-- The expansion of a pseudo-command (R82). -/
def Pseudo.expand : Pseudo → Option (List AsmLine)
  | .msg text => msgLines text
  | .msgx bytes => some (bytes.map .data)
  | .msgrep b n => some (List.replicate n (.data b))
  | .rdhall => some ((List.range 8).map .rdh)
  | .rdxall => some ((List.range 64).map .rdx)
  | .hash text => (msgLines text).map fun ls => .init :: ls ++ .final :: (List.range 64).map .rdx

/-- The command words of a list of command lines. -/
def assemble (lines : List AsmLine) : Option (List CmdWord) := lines.mapM AsmLine.word

end Sys2Proof.Machine
end

