-- ==== Sys2Proof/Machine/Chip.lean ====
section
/-! DEFINITION. Several engine instances on one chip (20_memory.md R66, 60_exceptions.md R228): they share nothing but
the ROMs, which are constants, so a chip is a list of states and each step is a step of one instance. -/

namespace Sys2Proof.Machine

/-- A chip of `n` instances, each right after its own first reset (R228, R240). Each has its own `chipIndex`, so that
what the registers of one hold after a reset says nothing about another (R6, R38, R66; log 3, log 10). -/
def chipReset (n : Nat) : List State := (List.range n).map fun k => resetEdge { State.reset with chipIndex := k }

/-- A step of instance `k`; there is nothing to step where the chip has no instance `k`. -/
def stepInstance (k : Nat) (chip : List State) : Host.Outcome (List State) Fault Refusal :=
  match chip[k]? with
  | none => .next chip
  | some s =>
    match step s with
    | .next t => .next (chip.set k t)
    | .fault f => .fault f
    | .refused r => .refused r

end Sys2Proof.Machine
end

