-- ==== Sys2Proof/Machine/Port.lean ====
section
/-! DEFINITION. The output ports of the response (45_commands.md R185). -/

namespace Sys2Proof.Machine

/-- The word on `rsp` in the step from `s` when `rsp_valid = 1`, and nothing when `rsp_valid = 0` (R185): the response
the step emits. -/
def State.rspPort (s : State) : Option RspWord :=
  match step s with
  | .next t => (t.RSP.drop s.RSP.length).head?.map Response.word
  | .fault _ => none
  | .refused _ => none

/-- The port `rsp_valid` (R185). -/
def State.rspValid (s : State) : Bool := s.rspPort.isSome

end Sys2Proof.Machine
end

