-- ==== Sys2Proof/Safety.lean ====
section
/-! DEFINITION. What every state reachable from reset satisfies (10_state.md R39, derived there from the rules), and what
a safe run is. -/

namespace Sys2Proof.Machine

/-- The phases in which a whole block is being compressed (R39). -/
def Phase.inBlock (p : Phase) : Bool :=
  p == .schld || p == .schex || p == .load || p == .round || p == .fold

/-- The message bytes accepted so far, modulo the block size (R29, R39). -/
def State.lenFill (s : State) : Nat := s.LEN.toNat / 8 % 64

/-- The invariant of reachable states: the items of R39, the range and availability of `B` that R38 adds, and what
makes the whole inductive (`T = 0` in the padder's phases by R28; where a resumed `ABSORB` will stand, by R29). -/
structure State.Inv (s : State) : Prop where
  /-- `B` is in canonical form. -/
  mem : s.B.wf = true
  /-- The first `N` bytes of `B` have a value (R24, R38). -/
  written : ∀ a, a < s.N.toNat → (s.B.read a).isSome = true
  /-- `RS ∈ {1, 3, 10}`. -/
  resume : s.RS = .absorb ∨ s.RS = .padz ∨ s.RS = .done
  /-- `LEN` is a multiple of 8. -/
  len8 : s.LEN.toNat % 8 = 0
  /-- `ERRC ≠ 0` exactly when `PH = ERROR` (R32). -/
  cause : s.ERRC ≠ .ok ↔ s.PH = .error
  /-- `T = 0` in every host phase and in the padder's phases (R28). -/
  index0 : s.PH.inBlock = false → s.T = 0#7
  idle : s.PH = .idle → s.N = 0#7 ∧ s.LEN = 0#64 ∧ s.RS = .absorb
  absorb : s.PH = .absorb → s.N.toNat ≤ 63 ∧ s.N.toNat = s.lenFill
  padt : s.PH = .padt → s.N.toNat ≤ 63
  padz : s.PH = .padz → s.N.toNat ≤ 63 ∧ s.N.toNat ≠ 56
  padl : s.PH = .padl → 56 ≤ s.N.toNat ∧ s.N.toNat ≤ 63
  block : s.PH.inBlock = true → s.N = 64#7
  schld : s.PH = .schld → s.T.toNat ≤ 15
  schex : s.PH = .schex → 16 ≤ s.T.toNat ∧ s.T.toNat ≤ 63
  load : s.PH = .load → s.T = 64#7
  round : s.PH = .round → s.T.toNat ≤ 63
  fold : s.PH = .fold → s.T = 64#7
  done : s.PH = .done → s.N = 0#7 ∧ s.RS = .done
  error : s.PH = .error → s.N.toNat ≤ 63
  /-- A block that a `DATA` completed ends a whole number of message blocks (R29, R31). -/
  wholeBlocks : s.PH.inBlock = true → s.RS = .absorb → s.lenFill = 0

/-- No reset arrives at the edges the environment has planned. -/
def State.noReset (s : State) : Prop := ∀ e ∈ s.edges, e.rst = false

/-- A run is over when every command has been accepted and `PH` is a host phase (45_commands.md R196). -/
def State.runOver (s : State) : Bool := s.cmds.isEmpty && s.PH.isHost

/-- A run of `k` steps that meets no fault and no refusal. -/
def SafeRun (k : Nat) (s : State) : Prop := ∃ t, Host.Core.run core k s = .next t

end Sys2Proof.Machine
end

