-- ==== Sys2Proof/Certificates/Slice0/Obligations.lean ====
section
/-! DEFINITION. The statements for the provers. Each says which rule of spec/ it formalises, or which sections it is
derived from. -/

namespace Sys2Proof.Machine.Claim

/-- The state after `raise c` by the text of 60_exceptions.md R219, written without the model's own `raise`. -/
def afterRaise (c : ErrCode) (s : State) : State :=
  { s with
    ERRC := if s.PH = .error then s.ERRC else c
    PH := .error
    RSP := s.RSP ++ [{ st := c, data := 0#32 }] }

/-- The state in which an accepted command is performed: its word and the edge are used up (45_commands.md R185). -/
def accepted (s : State) : State := { s with cmds := s.cmds.tail, edges := s.edges.tail }

/-- The `ok` entries of 45_commands.md R197: which command is legal in which host phase. -/
def legalIn : Instr → Phase → Bool
  | .init, p => p == .idle || p == .absorb || p == .done || p == .error
  | .data _, p => p == .absorb
  | .final, p => p == .absorb
  | .rdh _, p => p == .done
  | .rdx _, p => p == .done
  | .rds, p => p == .idle || p == .absorb || p == .done || p == .error
  | .padt, _ => false
  | .padz, _ => false
  | .padl, _ => false
  | .schld, _ => false
  | .schex, _ => false
  | .load, _ => false
  | .round, _ => false
  | .fold, _ => false

/-- The edges of the phase graph of 45_commands.md R193 but for reset: the phases a step may lead to. -/
def successors : Phase → List Phase
  | .idle => [.idle, .absorb, .error]
  | .absorb => [.absorb, .schld, .padt, .error]
  | .padt => [.schld, .padl, .padz]
  | .padz => [.schld, .padl, .padz]
  | .padl => [.padl, .schld]
  | .schld => [.schld, .schex]
  | .schex => [.schex, .load]
  | .load => [.round]
  | .round => [.round, .fold]
  | .fold => [.absorb, .padz, .done]
  | .done => [.done, .absorb, .error]
  | .error => [.error, .absorb]

/-- The first 64 primes, 2 to 311, in rising order (10_state.md section 2). -/
def primes64 : List Nat := (List.range 312).filter fun p => decide p.Prime

/-- The commands `INIT`, one `DATA` per byte of `M`, `FINAL` (45_commands.md section 4). -/
def hashing (M : List Byte) : List CmdWord := 0x100 :: M.map (fun b => 0x200 + b.setWidth 12) ++ [0x300]

/-- The commands `RDX 0` to `RDX 63`. -/
def readOut : List CmdWord := (List.range 64).map fun j => BitVec.ofNat 12 (0x500 + j)

end Sys2Proof.Machine.Claim

open Sys2Proof Sys2Proof.Machine Sys2Proof.Machine.Claim

/-! ### The six commands (45_commands.md) -/

/-- R186: the word 0x100 is `INIT`, and `INIT` completes in every state. -/
def Obligations.InitStartsTransaction : Prop :=
  decodeCommand 0x100 = .ok .init ∧ ∀ s : State, exec .init s = .next
    { s with
      H := IV, LEN := 0#64, N := 0#7, T := 0#7, RS := .absorb, ERRC := .ok, PH := .absorb
      RSP := s.RSP ++ [{ st := .ok, data := 0#32 }] }

/-- R187: the word `0x200 | b` is `DATA b`; it appends its byte in `ABSORB`, raises `InputTooLarge` at
`LEN = 2^64 - 8`, and is illegal elsewhere. -/
def Obligations.DataAppendsByteOrRaises : Prop :=
  ∀ (s : State) (b : Byte),
    decodeCommand (0x200 ||| b.setWidth 12) = .ok (.data b) ∧
    (s.PH = .absorb → s.LEN ≠ BitVec.ofNat 64 (2 ^ 64 - 8) → s.N.toNat ≤ 63 →
      exec (.data b) s = .next
        { s with
          B := s.B.write s.N.toNat b, N := s.N + 1#7, LEN := s.LEN + 8#64
          PH := if s.N = 63#7 then .schld else .absorb
          RS := if s.N = 63#7 then .absorb else s.RS
          T := if s.N = 63#7 then 0#7 else s.T
          RSP := s.RSP ++ [{ st := .ok, data := 0#32 }] }) ∧
    (s.PH = .absorb → s.LEN = BitVec.ofNat 64 (2 ^ 64 - 8) →
      exec (.data b) s = .next (afterRaise .inputTooLarge s)) ∧
    (s.PH ≠ .absorb → exec (.data b) s = .next (afterRaise .illegalCommand s))

/-- R188: the word 0x300 is `FINAL`; it enters `PADT` from `ABSORB` and is illegal elsewhere. -/
def Obligations.FinalStartsPaddingOrRaises : Prop :=
  decodeCommand 0x300 = .ok .final ∧ ∀ s : State,
    (s.PH = .absorb →
      exec .final s = .next { s with PH := .padt, RSP := s.RSP ++ [{ st := .ok, data := 0#32 }] }) ∧
    (s.PH ≠ .absorb → exec .final s = .next (afterRaise .illegalCommand s))

/-- R189: the word `0x400 | k` is `RDH k`; it answers `H[k]` in `DONE` and changes no state; elsewhere, or with
`k > 7`, it is illegal. -/
def Obligations.RdhAnswersHashWordOrRaises : Prop :=
  ∀ (s : State) (k : Byte),
    (k.toNat < 8 → decodeCommand (0x400 ||| k.setWidth 12) = .ok (.rdh k)) ∧
    (∀ h : k.toNat < 8, s.PH = .done →
      exec (.rdh k) s = .next { s with RSP := s.RSP ++ [{ st := .ok, data := s.H[k.toNat] }] }) ∧
    (s.PH ≠ .done ∨ 7 < k.toNat → exec (.rdh k) s = .next (afterRaise .illegalCommand s))

/-- R190: the word `0x500 | j` is `RDX j`; it answers the ASCII code of character `j` of the digest string in `DONE`;
elsewhere, or with `j > 63`, it is illegal. The nibble is written by division: bits `31-4m : 28-4m` of word `j div 8`,
with `m = j mod 8`. -/
def Obligations.RdxAnswersDigestCharacterOrRaises : Prop :=
  ∀ (s : State) (j : Byte),
    (j.toNat < 64 → decodeCommand (0x500 ||| j.setWidth 12) = .ok (.rdx j)) ∧
    (∀ h : j.toNat < 64, s.PH = .done →
      ∃ d : Word,
        exec (.rdx j) s = .next { s with RSP := s.RSP ++ [{ st := .ok, data := d }] } ∧
        ∃ v : Nat, v = s.H[j.toNat / 8].toNat / 2 ^ (28 - 4 * (j.toNat % 8)) % 16 ∧
          d.toNat = if v ≤ 9 then 0x30 + v else 0x57 + v) ∧
    (s.PH ≠ .done ∨ 63 < j.toNat → exec (.rdx j) s = .next (afterRaise .illegalCommand s))

/-- R191, with the fields of `STATUS` by R33: the word 0x600 is `RDS`; it completes in every state and changes none. -/
def Obligations.RdsAnswersStatus : Prop :=
  decodeCommand 0x600 = .ok .rds ∧ ∀ s : State, ∃ w : Word,
    exec .rds s = .next { s with RSP := s.RSP ++ [{ st := .ok, data := w }] } ∧
    w.extractLsb' 0 4 = s.PH.code ∧ w.extractLsb' 4 2 = s.ERRC.code ∧
    w.extractLsb' 6 1 = (if s.PH = .done then 1 else 0) ∧ w.extractLsb' 7 1 = 0 ∧
    w.extractLsb' 8 7 = s.N ∧ w.extractLsb' 15 17 = 0

/-! ### The eight micro-operations -/

/-- R124, phase 2, with `next_after_append` of R127: the terminator. -/
def Obligations.PadtAppendsTerminator : Prop :=
  decodePhase 2 = .ok .padt ∧ ∀ s : State, s.N.toNat ≤ 63 → exec .padt s = .next
    { s with
      B := s.B.write s.N.toNat 0x80#8, N := s.N + 1#7
      PH := if s.N = 63#7 then .schld else if s.N = 55#7 then .padl else .padz
      RS := if s.N = 63#7 then .padz else s.RS
      T := if s.N = 63#7 then 0#7 else s.T }

/-- R125, phase 3, with `next_after_append` of R127: one zero byte. -/
def Obligations.PadzAppendsZeroByte : Prop :=
  decodePhase 3 = .ok .padz ∧ ∀ s : State, s.N.toNat ≤ 63 → exec .padz s = .next
    { s with
      B := s.B.write s.N.toNat 0x00#8, N := s.N + 1#7
      PH := if s.N = 63#7 then .schld else if s.N = 55#7 then .padl else .padz
      RS := if s.N = 63#7 then .padz else s.RS
      T := if s.N = 63#7 then 0#7 else s.T }

/-- R126, phase 4: byte `j = N - 56` of the length suffix, bits `63-8j : 56-8j` of `LEN`, written by division. -/
def Obligations.PadlAppendsLengthByte : Prop :=
  decodePhase 4 = .ok .padl ∧ ∀ s : State, 56 ≤ s.N.toNat → s.N.toNat ≤ 63 → exec .padl s = .next
    { s with
      B := s.B.write s.N.toNat (BitVec.ofNat 8 (s.LEN.toNat / 2 ^ (56 - 8 * (s.N.toNat - 56))))
      N := s.N + 1#7
      PH := if s.N = 63#7 then .schld else .padl
      RS := if s.N = 63#7 then .done else s.RS
      T := if s.N = 63#7 then 0#7 else s.T }

/-- R141, phase 5: the big-endian word of `B[4T..4T+3]`, written by multiplication. -/
def Obligations.SchldLoadsBigEndianWord : Prop :=
  decodePhase 5 = .ok .schld ∧ ∀ (s : State) (b0 b1 b2 b3 : Byte) (h : s.T.toNat ≤ 15),
    s.B.read (4 * s.T.toNat) = some b0 → s.B.read (4 * s.T.toNat + 1) = some b1 →
    s.B.read (4 * s.T.toNat + 2) = some b2 → s.B.read (4 * s.T.toNat + 3) = some b3 →
    exec .schld s = .next
      { s with
        W := s.W.set s.T.toNat
          (BitVec.ofNat 32 (b0.toNat * 2 ^ 24 + b1.toNat * 2 ^ 16 + b2.toNat * 2 ^ 8 + b3.toNat))
        T := s.T + 1#7
        PH := if s.T = 15#7 then .schex else .schld }

/-- R142, phase 6: the recurrence, additions modulo 2^32. -/
def Obligations.SchexExpandsScheduleWord : Prop :=
  decodePhase 6 = .ok .schex ∧ ∀ (s : State) (_ : 16 ≤ s.T.toNat) (_ : s.T.toNat ≤ 63),
    exec .schex s = .next
      { s with
        W := s.W.set s.T.toNat
          (ssig0 s.W[s.T.toNat - 15] + s.W[s.T.toNat - 16] + ssig1 s.W[s.T.toNat - 2] + s.W[s.T.toNat - 7])
        T := s.T + 1#7
        PH := if s.T = 63#7 then .load else .schex }

/-- R157, phase 7: `LOAD` completes in every state. -/
def Obligations.LoadCopiesHashState : Prop :=
  decodePhase 7 = .ok .load ∧ ∀ s : State, exec .load s = .next { s with R := s.H, T := 0#7, PH := .round }

/-- R158, phase 8, with the round of R155: every right-hand side is the register's value before the round. -/
def Obligations.RoundUpdatesWorkingRegisters : Prop :=
  decodePhase 8 = .ok .round ∧ ∀ (s : State) (_ : s.T.toNat ≤ 63) (a b c d e f g h t1 t2 : Word),
    s.R = #v[a, b, c, d, e, f, g, h] →
    t1 = h + bsig1 e + ch e f g + K[s.T.toNat] + s.W[s.T.toNat] → t2 = bsig0 a + maj a b c →
    exec .round s = .next
      { s with
        R := #v[t1 + t2, a, b, c, d + t1, e, f, g]
        T := s.T + 1#7
        PH := if s.T = 63#7 then .fold else .round }

/-- R159, phase 9: `FOLD` completes in every state: `H0 += a, H1 += b, ..., H7 += h`, and the phase is `RS`. -/
def Obligations.FoldAddsIntoHashState : Prop :=
  decodePhase 9 = .ok .fold ∧ ∀ s : State, exec .fold s = .next
    { s with
      H := #v[s.H[0] + s.R[0], s.H[1] + s.R[1], s.H[2] + s.R[2], s.H[3] + s.R[3],
              s.H[4] + s.R[4], s.H[5] + s.R[5], s.H[6] + s.R[6], s.H[7] + s.R[7]]
      N := 0#7, T := 0#7, PH := s.RS }

/-! ### Frames -/

/-- What stores nothing leaves every byte of `B` as it was: every instruction but `DATA` and the three padder steps. -/
def Obligations.OtherInstructionsLeaveBuffer : Prop :=
  ∀ (i : Instr) (s t : State), exec i s = .next t →
    (∀ b, i ≠ .data b) → i ≠ .padt → i ≠ .padz → i ≠ .padl →
    ∀ a, t.B.read a = s.B.read a

/-- `DATA`, `PADT`, `PADZ` and `PADL` store one byte, at the address `N` before the step, or nothing when `DATA` raises;
`H`, `R`, `W` and the host's input stay, `RS` and `T` change only when the block is complete, `LEN` and `RSP`
only by `DATA`, `ERRC` only when it raises. -/
def Obligations.AppendingInstructionsFrame : Prop :=
  ∀ (i : Instr) (s t : State), exec i s = .next t →
    ((∃ b, i = .data b) ∨ i = .padt ∨ i = .padz ∨ i = .padl) →
    (∀ a, a ≠ s.N.toNat → t.B.read a = s.B.read a) ∧
    t.H = s.H ∧ t.R = s.R ∧ t.W = s.W ∧ t.cmds = s.cmds ∧ t.edges = s.edges ∧ t.resets = s.resets ∧
    t.chipIndex = s.chipIndex ∧
    (t.N ≠ 64#7 → t.RS = s.RS ∧ t.T = s.T) ∧
    ((∀ b, i ≠ .data b) → t.LEN = s.LEN ∧ t.ERRC = s.ERRC ∧ t.RSP = s.RSP) ∧
    (t.PH ≠ .error → t.ERRC = s.ERRC) ∧
    (t.PH = .error → t.B = s.B ∧ t.N = s.N ∧ t.LEN = s.LEN ∧ t.RS = s.RS ∧ t.T = s.T)

/-- `SCHLD` and `SCHEX` change `W[T]`, `T` and `PH` only; `LOAD` and `ROUND` change the working registers, `T` and `PH`
only; `FOLD` changes `H`, `N`, `T` and `PH` only. -/
def Obligations.BlockInstructionsFrame : Prop :=
  ∀ (i : Instr) (s t : State), exec i s = .next t →
    (i = .schld ∨ i = .schex ∨ i = .load ∨ i = .round ∨ i = .fold) →
    t.LEN = s.LEN ∧ t.RS = s.RS ∧ t.ERRC = s.ERRC ∧ t.RSP = s.RSP ∧ t.cmds = s.cmds ∧ t.edges = s.edges ∧
    t.resets = s.resets ∧ t.chipIndex = s.chipIndex ∧
    (i = .schld ∨ i = .schex → t.H = s.H ∧ t.R = s.R ∧ t.N = s.N ∧
      ∀ (k : Nat) (_ : k < 64), k ≠ s.T.toNat → t.W[k] = s.W[k]) ∧
    (i = .load ∨ i = .round → t.H = s.H ∧ t.W = s.W ∧ t.N = s.N) ∧
    (i = .fold → t.R = s.R ∧ t.W = s.W)

/-- The commands that store no byte: `R`, `W` and the host's input stay; only `INIT` changes `H`, `N`, `T`, `LEN` or
`RS`; each emits exactly one response. -/
def Obligations.NonstoringCommandsFrame : Prop :=
  ∀ (i : Instr) (s t : State), exec i s = .next t →
    (i = .init ∨ i = .final ∨ (∃ k, i = .rdh k) ∨ (∃ j, i = .rdx j) ∨ i = .rds) →
    t.R = s.R ∧ t.W = s.W ∧ t.cmds = s.cmds ∧ t.edges = s.edges ∧ t.resets = s.resets ∧
    t.chipIndex = s.chipIndex ∧
    (∃ r, t.RSP = s.RSP ++ [r]) ∧
    (i ≠ .init → t.H = s.H ∧ t.N = s.N ∧ t.T = s.T ∧ t.LEN = s.LEN ∧ t.RS = s.RS) ∧
    (i ≠ .init → t.PH ≠ .error → t.ERRC = s.ERRC) ∧
    (i = .rds → t.PH = s.PH ∧ t.ERRC = s.ERRC)

/-! ### Exceptions (60_exceptions.md) -/

/-- R219: taking an exception is precise: what `raise` does, and that a step whose response says that it raised did that
and nothing else. -/
def Obligations.ErrorEntryIsPrecise : Prop :=
  (∀ (c : ErrCode) (s : State),
    (s.PH ≠ .error → raise c s = { s with ERRC := c, PH := .error, RSP := s.RSP ++ [{ st := c, data := 0#32 }] }) ∧
    (s.PH = .error → raise c s = { s with RSP := s.RSP ++ [{ st := c, data := 0#32 }] })) ∧
  ∀ (s t : State) (r : Response), s.rst = false → s.PH.isHost = true → step s = .next t → t.RSP = s.RSP ++ [r] →
    r.st ≠ .ok → t = afterRaise r.st (accepted s)

/-- R220: in `ERROR` the port is ready, `RDS` shows `PH = 11`, `DV = 0` and the first cause, `INIT` is performed, and
every other word only emits the response 2. -/
def Obligations.ErrorPhaseIsSticky : Prop :=
  ∀ (s : State) (c : CmdWord), s.rst = false → s.PH = .error → s.cmdPort = some c →
    s.cmdReady = true ∧
    (c = 0x600 → ∃ w : Word,
      step s = .next { accepted s with RSP := s.RSP ++ [{ st := .ok, data := w }] } ∧
      w.extractLsb' 0 4 = 11 ∧ w.extractLsb' 4 2 = s.ERRC.code ∧ w.extractLsb' 6 1 = 0) ∧
    (c = 0x100 → ∃ t, step s = exec .init (accepted s) ∧ step s = .next t ∧ t.PH = .absorb ∧ t.ERRC = .ok) ∧
    (c ≠ 0x100 → c ≠ 0x600 →
      step s = .next { accepted s with RSP := s.RSP ++ [{ st := .illegalCommand, data := 0#32 }] })

/-- R221: `ERROR` is left only by `INIT` or by reset. -/
def Obligations.OnlyInitOrResetLeavesError : Prop :=
  ∀ s t : State, s.PH = .error → step s = .next t → t.PH ≠ .error →
    (s.rst = true ∧ t.PH = .idle) ∨ (s.rst = false ∧ s.cmdPort = some 0x100 ∧ t.PH = .absorb ∧ t.ERRC = .ok ∧ t.H = IV ∧
      t.LEN = 0#64)

/-! ### Reset (70_reset_and_hazards.md) -/

/-- R38, R241: the values the spec gives after reset, `STATUS = 0` and `cmd_ready = 1`. The values of `H`, `R`, `W` in
`State.reset` are the model's choice (log 1) and are not stated. -/
def Obligations.ResetStateControlValues : Prop :=
  State.reset.PH = .idle ∧ State.reset.T = 0#7 ∧ State.reset.N = 0#7 ∧ State.reset.LEN = 0#64 ∧
  State.reset.RS = .absorb ∧ State.reset.ERRC = .ok ∧ status State.reset = 0 ∧ State.reset.cmdReady = true

/-- R240: a reset edge wins over a presented command and over an engine step, in every state; no response is emitted,
the presented words stay presented, and the contents of `H`, `R`, `W`, `B` are not stated. -/
def Obligations.ResetEdgeWins : Prop :=
  ∀ s : State, s.rst = true → ∃ t, step s = .next t ∧
    t.PH = .idle ∧ t.T = 0#7 ∧ t.N = 0#7 ∧ t.LEN = 0#64 ∧ t.RS = .absorb ∧ t.ERRC = .ok ∧
    t.RSP = s.RSP ∧ t.cmds = s.cmds ∧ t.edges = s.edges.tail

/-! ### The step -/

/-- A step runs the decoded instruction, commands: in a host phase the word on the port that decodes to `i` is accepted
and `i` is performed, the word and the edge used up. -/
def Obligations.StepPerformsAcceptedCommand : Prop :=
  ∀ (s : State) (c : CmdWord) (i : Instr), s.rst = false → s.PH.isHost = true → s.cmdPort = some c →
    decodeCommand c = .ok i → step s = exec i (accepted s)

/-- A step runs the decoded instruction, micro-operations: in an engine phase the phase's code decodes, the step is that
micro-operation, and nothing of the host's input is used but the edge. -/
def Obligations.StepPerformsMicroOperation : Prop :=
  ∀ s : State, s.rst = false → s.PH.isHost = false →
    ∃ i, decodePhase s.PH.code = .ok i ∧ step s = exec i { s with edges := s.edges.tail }

/-- In a host phase with no command presented no agent steps: nothing changes but that the edge is used up. That `step`
answers at all there is the model's choice (log 6). -/
def Obligations.StepWaitsForCommand : Prop :=
  ∀ s : State, s.rst = false → s.PH.isHost = true → s.cmdPort = none →
    step s = .next { s with edges := s.edges.tail }

/-- R75, R76: a word with a reserved opcode or with non-zero reserved operand bits raises `IllegalCommand` in every host
phase. `op` is `c div 256` and `arg` is `c mod 256`. -/
def Obligations.ReservedWordsRaise : Prop :=
  ∀ (s : State) (c : CmdWord), s.rst = false → s.PH.isHost = true → s.cmdPort = some c →
    (c.toNat / 256 = 0 ∨ 7 ≤ c.toNat / 256 ∨
      ((c.toNat / 256 = 1 ∨ c.toNat / 256 = 3 ∨ c.toNat / 256 = 6) ∧ c.toNat % 256 ≠ 0) ∨
      (c.toNat / 256 = 4 ∧ 7 < c.toNat % 256) ∨ (c.toNat / 256 = 5 ∧ 63 < c.toNat % 256)) →
    step s = .next (afterRaise .illegalCommand (accepted s))

/-- R197: the legality of every word in every host phase, seen in the response. -/
def Obligations.LegalityMatrix : Prop :=
  ∀ (s t : State) (c : CmdWord), s.rst = false → s.PH.isHost = true → s.cmdPort = some c → step s = .next t →
    ∃ r, t.RSP = s.RSP ++ [r] ∧
      (r.st = .illegalCommand ↔ ∀ i, decodeCommand c = .ok i → legalIn i s.PH = false) ∧
      (r.st = .inputTooLarge ↔
        s.PH = .absorb ∧ s.LEN = BitVec.ofNat 64 (2 ^ 64 - 8) ∧ ∃ b, decodeCommand c = .ok (.data b)) ∧
      (r.st = .illegalCommand → t = afterRaise .illegalCommand (accepted s))

/-- R192: an accepted word emits exactly one response, with data 0 when it raises; every other step emits nothing. -/
def Obligations.OneResponsePerAcceptedCommand : Prop :=
  ∀ s t : State, step s = .next t →
    (s.rst = false ∧ s.PH.isHost = true ∧ s.cmdPort.isSome = true →
      ∃ r, t.RSP = s.RSP ++ [r] ∧ (r.st ≠ .ok → r.data = 0) ∧ t.cmds = s.cmds.tail) ∧
    (s.rst = true ∨ s.PH.isHost = false ∨ s.cmdPort = none → t.RSP = s.RSP ∧ t.cmds = s.cmds)

/-- The response port (45_commands.md section 1): `rsp_valid` is 1 for exactly the step that accepts a word, and `rsp` is
then the response the history gains. -/
def Obligations.ResponsePortCarriesResponse : Prop :=
  ∀ s t : State, step s = .next t →
    (s.rst = false ∧ s.cmdReady = true ∧ s.cmdValid = true →
      ∃ r, t.RSP = s.RSP ++ [r] ∧ s.rspPort = some r.word) ∧
    (s.rst = true ∨ s.cmdReady = false ∨ s.cmdValid = false → s.rspPort = none)

/-- A command presented in an engine phase is held: the step is the same whatever the host presents or does not present,
and leaves what it presents. -/
def Obligations.HeldCommandsChangeNothing : Prop :=
  ∀ (s t : State) (cs : List CmdWord) (es : List PortEdge), s.PH.isHost = false → s.rst = false →
    ({ s with edges := es } : State).rst = false → step s = .next t →
    step { s with cmds := cs, edges := es } = .next { t with cmds := cs, edges := es.tail }

/-! ### Encoding (30_encoding.md) -/

/-- Words written out from 30_encoding.md R73, R79 and the list of 95_test_vectors.md S7. -/
def Obligations.SampleWordsDecode : Prop :=
  decodeCommand 0b000100000000 = .ok .init ∧ decodeCommand 0b001001100001 = .ok (.data 0x61) ∧
  decodeCommand 0b001100000000 = .ok .final ∧ decodeCommand 0b010000000111 = .ok (.rdh 7) ∧
  decodeCommand 0b010100111111 = .ok (.rdx 63) ∧ decodeCommand 0b011000000000 = .ok .rds ∧
  decodePhase 0b0010 = .ok .padt ∧ decodePhase 0b1001 = .ok .fold ∧
  decodeCommand 0x101 = .error (.reservedOperand 0x01) ∧ decodeCommand 0x408 = .error (.reservedOperand 0x08) ∧
  decodeCommand 0x540 = .error (.reservedOperand 0x40) ∧ decodeCommand 0x000 = .error (.reservedOpcode 0) ∧
  decodeCommand 0xfff = .error (.reservedOpcode 0xf)

/-- R73: each of the six rows is exactly its match under its mask, and 331 of the 4096 words are legal. -/
def Obligations.CommandRowsSelect : Prop :=
  (∀ c : CmdWord,
    (decodeCommand c = .ok .init ↔ c &&& 0xFFF = 0x100) ∧
    ((∃ b, decodeCommand c = .ok (.data b)) ↔ c &&& 0xF00 = 0x200) ∧
    (decodeCommand c = .ok .final ↔ c &&& 0xFFF = 0x300) ∧
    ((∃ k, decodeCommand c = .ok (.rdh k)) ↔ c &&& 0xFF8 = 0x400) ∧
    ((∃ j, decodeCommand c = .ok (.rdx j)) ↔ c &&& 0xFC0 = 0x500) ∧
    (decodeCommand c = .ok .rds ↔ c &&& 0xFFF = 0x600)) ∧
  ((List.range 4096).filter fun n => (decodeCommand (BitVec.ofNat 12 n)).toOption.isSome).length = 331

/-- R79: the code of each of the twelve phases, the micro-operation of each code, the codes that select none, and which
phases are host phases. -/
def Obligations.PhaseCodesSelect : Prop :=
  (Phase.idle.code = 0 ∧ Phase.absorb.code = 1 ∧ Phase.padt.code = 2 ∧ Phase.padz.code = 3 ∧ Phase.padl.code = 4 ∧
    Phase.schld.code = 5 ∧ Phase.schex.code = 6 ∧ Phase.load.code = 7 ∧ Phase.round.code = 8 ∧ Phase.fold.code = 9 ∧
    Phase.done.code = 10 ∧ Phase.error.code = 11) ∧
  (decodePhase Phase.padt.code = .ok .padt ∧ decodePhase Phase.padz.code = .ok .padz ∧
    decodePhase Phase.padl.code = .ok .padl ∧ decodePhase Phase.schld.code = .ok .schld ∧
    decodePhase Phase.schex.code = .ok .schex ∧ decodePhase Phase.load.code = .ok .load ∧
    decodePhase Phase.round.code = .ok .round ∧ decodePhase Phase.fold.code = .ok .fold) ∧
  (List.range 16).map (fun p => (decodePhase (BitVec.ofNat 4 p)).toOption) =
    [none, none, some .padt, some .padz, some .padl, some .schld, some .schex, some .load, some .round, some .fold,
      none, none, none, none, none, none] ∧
  (List.range 16).map (fun p => phaseOfCode (BitVec.ofNat 4 p)) =
    [some .idle, some .absorb, some .padt, some .padz, some .padl, some .schld, some .schex, some .load, some .round,
      some .fold, some .done, some .error, none, none, none, none] ∧
  ∀ p : Phase, (p.isHost = true ↔ p = .idle ∨ p = .absorb ∨ p = .done ∨ p = .error) ∧
    (p.isHost = true ↔ (decodePhase p.code).toOption = none)

/-- Decode and encode agree in both directions: a word decodes to `i` exactly when `i` is well formed and is encoded by
that word. -/
def Obligations.DecodeIffEncode : Prop :=
  ∀ (x : InstrWord) (i : Instr), decode x = .ok i ↔ i.wf = true ∧ encode i = x

/-- R72: the fields of a response word; `st = 3` is never produced. -/
def Obligations.ResponseWordFields : Prop :=
  ∀ r : Response,
    r.word.extractLsb' 0 32 = r.data ∧ r.word.extractLsb' 32 2 ≠ 3 ∧
    (r.word.extractLsb' 32 2 = 0 ↔ r.st = .ok) ∧ (r.word.extractLsb' 32 2 = 1 ↔ r.st = .inputTooLarge) ∧
    (r.word.extractLsb' 32 2 = 2 ↔ r.st = .illegalCommand)

/-- The pseudo-command `HASH` (30_encoding.md section 5) on a text of 7-bit characters assembles to the commands of one
transaction. -/
def Obligations.HashPseudoCommandIsTransaction : Prop :=
  ∀ text : List Char, (∀ c ∈ text, c.toNat < 128) →
    ((Pseudo.hash text).expand.bind assemble) =
      some (hashing (text.map fun c => BitVec.ofNat 8 c.toNat) ++ readOut)

/-! ### Word operations and constants (40_word_ops.md, 10_state.md) -/

/-- R100 to R102: addition, rotation and shift, by value and by bits. -/
def Obligations.AddRotateShift : Prop :=
  ∀ x y : Word,
    (add32 x y).toNat = (x.toNat + y.toNat) % 2 ^ 32 ∧
    (∀ n, 1 ≤ n → n ≤ 31 → ∀ i, i < 32 → (rotr x n).getLsbD i = x.getLsbD ((i + n) % 32)) ∧
    (∀ n, (shr x n).toNat = x.toNat / 2 ^ n)

/-- R104, R105: each bit of `Ch` is selected by `x`; each bit of `Maj` is set when at least two of the three are. -/
def Obligations.ChooseAndMajorityBits : Prop :=
  ∀ (x y z : Word) (i : Nat), i < 32 →
    (ch x y z).getLsbD i = (if x.getLsbD i then y.getLsbD i else z.getLsbD i) ∧
    ((maj x y z).getLsbD i = true ↔
      2 ≤ (x.getLsbD i).toNat + (y.getLsbD i).toNat + (z.getLsbD i).toNat)

/-- R106 to R109, bit by bit: the rotations of the four sigmas, and the shifts of the small ones. -/
def Obligations.SigmaBits : Prop :=
  ∀ (x : Word) (i : Nat), i < 32 →
    (bsig0 x).getLsbD i =
      ((x.getLsbD ((i + 2) % 32) ^^ x.getLsbD ((i + 13) % 32)) ^^ x.getLsbD ((i + 22) % 32)) ∧
    (bsig1 x).getLsbD i =
      ((x.getLsbD ((i + 6) % 32) ^^ x.getLsbD ((i + 11) % 32)) ^^ x.getLsbD ((i + 25) % 32)) ∧
    (ssig0 x).getLsbD i =
      ((x.getLsbD ((i + 7) % 32) ^^ x.getLsbD ((i + 18) % 32)) ^^ (decide (i + 3 < 32) && x.getLsbD (i + 3))) ∧
    (ssig1 x).getLsbD i =
      ((x.getLsbD ((i + 17) % 32) ^^ x.getLsbD ((i + 19) % 32)) ^^ (decide (i + 10 < 32) && x.getLsbD (i + 10)))

/-- The ROMs hold the first 32 bits of the fractional parts of the cube roots of the first 64 primes and of the square
roots of the first 8 (10_state.md section 2, where the spec marks the values as general knowledge; log 11). -/
def Obligations.ConstantsAreFractionsOfRoots : Prop :=
  primes64.length = 64 ∧
  (∀ (t : Fin 64) (p : Nat), primes64[t.val]? = some p →
    ∃ r : Nat, r ^ 3 ≤ p * 2 ^ 96 ∧ p * 2 ^ 96 < (r + 1) ^ 3 ∧ r % 2 ^ 32 = K[t].toNat) ∧
  (∀ (k : Fin 8) (p : Nat), primes64[k.val]? = some p →
    ∃ r : Nat, r ^ 2 ≤ p * 2 ^ 64 ∧ p * 2 ^ 64 < (r + 1) ^ 2 ∧ r % 2 ^ 32 = IV[k].toNat)

/-! ### The functions of a message and of a block -/

/-- The padded message and its blocks (41_padder.md section 1): the padded message is whole blocks,
`floor((L + 8) / 64) + 1` of them, begins with the message and `0x80`, then zero bytes, and ends with the message's bit
length; from 9 to 72 bytes are appended; the padding spills into an extra block exactly when `L mod 64 ≥ 56`; the blocks
have 64 bytes each and are, in order, the padded message. -/
def Obligations.PaddingInvariants : Prop :=
  ∀ M : List Byte, M.length ≤ 2 ^ 61 - 1 → ∃ P, pad M = some P ∧
    P.length % 64 = 0 ∧ P.length / 64 = (M.length + 8) / 64 + 1 ∧
    9 ≤ P.length - M.length ∧ P.length - M.length ≤ 72 ∧
    P.take M.length = M ∧ P[M.length]? = some 0x80 ∧
    (∀ a, M.length < a → a < P.length - 8 → P[a]? = some 0x00) ∧
    (∀ j, j < 8 → P[P.length - 8 + j]? = some (BitVec.ofNat 8 (8 * M.length / 2 ^ (56 - 8 * j)))) ∧
    (P.length / 64 = M.length / 64 + 2 ↔ 56 ≤ M.length % 64) ∧ (blocks P).length = P.length / 64 ∧
    (∀ b ∈ blocks P, b.length = 64) ∧ (blocks P).flatten = P

/-- R140: the 64 words of a block's schedule. -/
def Obligations.ScheduleMeetsRecurrence : Prop :=
  ∀ blk : List Byte, blk.length = 64 →
    (schedule blk).length = 64 ∧
    (∀ i b0 b1 b2 b3, i < 16 → blk[4 * i]? = some b0 → blk[4 * i + 1]? = some b1 → blk[4 * i + 2]? = some b2 →
      blk[4 * i + 3]? = some b3 →
      (schedule blk)[i]? =
        some (BitVec.ofNat 32 (b0.toNat * 2 ^ 24 + b1.toNat * 2 ^ 16 + b2.toNat * 2 ^ 8 + b3.toNat))) ∧
    (∀ i w15 w16 w2 w7, 16 ≤ i → i < 64 → (schedule blk)[i - 15]? = some w15 → (schedule blk)[i - 16]? = some w16 →
      (schedule blk)[i - 2]? = some w2 → (schedule blk)[i - 7]? = some w7 →
      (schedule blk)[i]? = some (ssig0 w15 + w16 + ssig1 w2 + w7))

/-- The two read-outs agree (44_formatter.md): the 64 characters of `hex` are the 32 digest bytes, each as two
lowercase digits, high nibble first; their codes are what `RDX` returns; and the digits of word `k` spell its value. -/
def Obligations.HexSpellsDigest : Prop :=
  ∀ Hs : Words8,
    (hex Hs).length = 64 ∧
    (hex Hs).map (fun c => c.toNat) = (List.finRange 64).map (fun j => (hexChar Hs j).toNat) ∧
    hex Hs = (digestBytes Hs).flatMap (fun b => [hexDigit (b.extractLsb' 4 4), hexDigit (b.extractLsb' 0 4)]) ∧
    ∀ k : Fin 8, Hs[k].toNat =
      (List.range 8).foldl (fun v m => 16 * v + (nib Hs (Fin.ofNat 64 (8 * k.val + m))).toNat) 0

/-! ### Invariants and whole-machine rules -/

/-- The reset state meets the invariant. -/
def Obligations.ResetMeetsInvariant : Prop := State.reset.Inv

/-- Every step keeps the invariant of 10_state.md section 7. -/
def Obligations.StepKeepsInvariant : Prop :=
  ∀ s t : State, s.Inv → step s = .next t → t.Inv

/-- No state that meets the invariant stops: every guard of a micro-operation holds when it is reached (45_commands.md
section 3), and no byte without a value is read (10_state.md section 6). -/
def Obligations.InvariantStatesNeverStop : Prop :=
  ∀ s : State, s.Inv → ∃ t, step s = .next t

/-- The phase graph (45_commands.md section 3): a step leads along one of its edges, and `reset` to `IDLE`. -/
def Obligations.StepsFollowPhaseGraph : Prop :=
  ∀ s t : State, s.Inv → step s = .next t →
    (s.rst = true → t.PH = .idle) ∧ (s.rst = false → t.PH ∈ successors s.PH)

/-- The length counter never wraps (10_state.md section 3, 40_word_ops.md section 3): a step keeps it, clears it by
`INIT` or reset, or adds 8 without overflow by an accepted `DATA` in `ABSORB`. -/
def Obligations.LengthCounterNeverWraps : Prop :=
  ∀ s t : State, s.Inv → step s = .next t →
    t.LEN = s.LEN ∨
    (t.LEN = 0#64 ∧ (s.rst = true ∨ s.cmdPort = some 0x100)) ∨
    (t.LEN.toNat = s.LEN.toNat + 8 ∧ s.PH = .absorb ∧ ∃ c, s.cmdPort = some c ∧ c &&& 0xF00 = 0x200)

/-- What the host cannot learn (10_state.md sections 2 and 5): the responses of a step do not depend on `R`, `W`, `B`,
`T`, `RS`, nor on `H` outside `DONE`. -/
def Obligations.ResponsesHideInternalState : Prop :=
  ∀ s s' t t' : State, s'.PH = s.PH → s'.N = s.N → s'.LEN = s.LEN → s'.ERRC = s.ERRC → s'.RSP = s.RSP →
    s'.cmds = s.cmds → s'.edges = s.edges → (s.PH = .done → s'.H = s.H) →
    step s = .next t → step s' = .next t' → t'.RSP = t.RSP

/-- The digest is final (10_state.md section 2): in `DONE` only an accepted `INIT` or a reset changes `H`. -/
def Obligations.DigestIsFinalInDone : Prop :=
  ∀ s t : State, s.PH = .done → step s = .next t → t.H ≠ s.H → s.rst = true ∨ s.cmdPort = some 0x100

/-- Steps of two instances commute (20_memory.md section 5). -/
def Obligations.InstancesCommute : Prop :=
  ∀ (chip c1 c2 : List State) (i j : Nat), i ≠ j →
    stepInstance i chip = .next c1 → stepInstance j chip = .next c2 →
    ∃ d, stepInstance j c1 = .next d ∧ stepInstance i c2 = .next d

/-! ### Runs -/

/-- The schedule of a block (42_scheduler.md section 3): 64 steps from a full buffer and `T = 0` leave `W = schedule(B)`
and the phase `LOAD`. -/
def Obligations.SchedulerComputesSchedule : Prop :=
  ∀ (s : State) (blk : List Byte), s.noReset → s.PH = .schld → s.T = 0#7 → blk.length = 64 →
    (∀ a, a < 64 → s.B.read a = blk[a]?) →
    ∃ t, Host.Core.run core 64 s = .next t ∧ t.PH = .load ∧ t.W.toList = schedule blk ∧
      t.H = s.H ∧ t.B = s.B ∧ t.RS = s.RS ∧ t.RSP = s.RSP ∧ t.cmds = s.cmds

/-- One block (43_compression.md section 3): 130 steps from a full buffer and `T = 0` make `H = compress(H, B)`, accept
no command, and end in the phase `RS` with `N = T = 0`. -/
def Obligations.EngineCompressesBlock : Prop :=
  ∀ (s : State) (blk : List Byte), s.noReset → s.PH = .schld → s.T = 0#7 → blk.length = 64 →
    (∀ a, a < 64 → s.B.read a = blk[a]?) →
    ∃ t, Host.Core.run core 130 s = .next t ∧ t.PH = s.RS ∧ t.N = 0#7 ∧ t.T = 0#7 ∧ t.H = compress s.H blk ∧
      t.LEN = s.LEN ∧ t.RSP = s.RSP ∧ t.cmds = s.cmds

/-- Progress (45_commands.md section 4): from any engine phase a host phase is reached within 332 steps, whatever the
host does short of a reset. -/
def Obligations.EngineReachesHostPhase : Prop :=
  ∀ s : State, s.Inv → s.noReset → s.PH.isHost = false →
    ∃ k t, k ≤ 332 ∧ Host.Core.run core k s = .next t ∧ t.PH.isHost = true ∧ t.RSP = s.RSP ∧ t.cmds = s.cmds

/-- The transaction (45_commands.md section 4, 43_compression.md section 3): from any host phase, whatever the registers
and the buffer were left with and whenever the host pauses, `INIT`, one `DATA` per byte of `M`, `FINAL` and the 64 `RDX`
are all answered `OK`, and the data of the 64 `RDX` responses are the codes of the characters of `digest(M)`. -/
def Obligations.TransactionAnswersDigest : Prop :=
  ∀ (s : State) (M : List Byte) (d : List Char), s.noReset → s.PH.isHost = true →
    digest M = some d → s.cmds = hashing M ++ readOut →
    ∃ k t, Host.Core.run core k s = .next t ∧ t.PH = .done ∧ t.runOver = true ∧ some t.H = sha256 M ∧
      t.RSP = s.RSP ++ List.replicate (M.length + 2) { st := .ok, data := 0#32 } ++
        d.map (fun c => { st := .ok, data := BitVec.ofNat 32 c.toNat })

/-- A message of `2^61` bytes or more fails (45_commands.md section 4): the `DATA` of byte index `2^61 - 1` is answered
`InputTooLarge`, every later command `IllegalCommand`, and the engine is in `ERROR`. After `FINAL` come any words `rest`
but `INIT` and `RDS`: the 64 `RDX` (`readOut`), or the eight `RDH`, of the transaction. The responses are `INIT`'s, then
one per byte index `i`, then those of `FINAL` and of `rest`. -/
def Obligations.OverlongMessageFails : Prop :=
  ∀ (s : State) (M : List Byte) (rest : List CmdWord), s.noReset → s.PH.isHost = true → 2 ^ 61 ≤ M.length →
    (∀ c ∈ rest, c ≠ 0x100 ∧ c ≠ 0x600) → s.cmds = hashing M ++ rest →
    ∃ k t, Host.Core.run core k s = .next t ∧ t.PH = .error ∧ t.ERRC = .inputTooLarge ∧ t.runOver = true ∧
      t.RSP = s.RSP ++ { st := .ok, data := 0#32 } ::
        (List.range M.length).map (fun i =>
          { st := if i < 2 ^ 61 - 1 then .ok else if i = 2 ^ 61 - 1 then .inputTooLarge else .illegalCommand
            data := 0#32 }) ++
        List.replicate (rest.length + 1) { st := .illegalCommand, data := 0#32 }
end

