-- ==== Sys2Proof/Laws/Flags.lean ====
section
/-! SUPPORT. `STATUS` and a response word as numbers (10_state.md R33, 30_encoding.md R72). -/

namespace Sys2Proof.Machine

/-- Concatenation as a number: the left part counts `2^w`. -/
theorem append_toNat {v w : Nat} (x : BitVec v) (y : BitVec w) : (x ++ y).toNat = x.toNat * 2 ^ w + y.toNat := by
  rw [BitVec.toNat_append, ← Nat.shiftLeft_add_eq_or_of_lt y.isLt, Nat.shiftLeft_eq]

/-- `STATUS` is `N` from bit 8, `DV` at bit 6, `ERRC` from bit 4 and `PH` from bit 0 (R33). -/
theorem status_toNat (s : State) :
    (status s).toNat =
      s.N.toNat * 256 + (digestValid s).toNat * 64 + s.ERRC.code.toNat * 16 + s.PH.code.toNat := by
  have := s.N.isLt; have := (digestValid s).isLt; have := s.ERRC.code.isLt; have := s.PH.code.isLt
  unfold status
  have h0 : (0 : BitVec 1).toNat = 0 := rfl
  rw [BitVec.toNat_setWidth, append_toNat, append_toNat, append_toNat, append_toNat]
  omega

/-- A response word is `st` from bit 32 and `data` from bit 0 (R72). -/
theorem response_word_toNat (r : Response) : r.word.toNat = r.st.code.toNat * 2 ^ 32 + r.data.toNat :=
  append_toNat _ _

end Sys2Proof.Machine
end

