-- ==== Sys2Proof/Laws/Memory.lean ====
section
/-! SUPPORT. The block buffer: a read after a write, and that every operation keeps the canonical form. -/

namespace Sys2Proof.Machine

@[simp] theorem Memory.read_nil (a : Nat) : Memory.read [] a = none := rfl

/-- A byte reads as what was written to it last. -/
theorem Memory.read_write_same (m : Memory) (a : Nat) (v : Byte) : (m.write a v).read a = some v := by
  induction m with
  | nil => simp [Memory.write, Memory.read]
  | cons c m ih =>
    unfold Memory.write
    split
    · simp [Memory.read]
    · split
      · simp [Memory.read]
      · rename_i h1 h2
        have h : c.1 ≠ a := by omega
        simp [Memory.read, h, ih]

/-- A write leaves every other byte as it was. -/
theorem Memory.read_write_other (m : Memory) (a b : Nat) (v : Byte) (h : b ≠ a) :
    (m.write a v).read b = m.read b := by
  induction m with
  | nil => simp [Memory.write, Memory.read, Ne.symm h]
  | cons c m ih =>
    unfold Memory.write
    split
    · simp [Memory.read, Ne.symm h]
    · split
      · rename_i h1 h2
        have hc : c.1 ≠ b := by omega
        simp [Memory.read, Ne.symm h, hc]
      · simp [Memory.read, ih]

/-- One spelling of both cases. -/
theorem Memory.read_write (m : Memory) (a b : Nat) (v : Byte) :
    (m.write a v).read b = if b = a then some v else m.read b := by
  split
  · subst b; exact m.read_write_same a v
  · exact m.read_write_other a b v ‹_›

/-- The bytes that have a value after a write. -/
theorem Memory.isSome_read_write (m : Memory) (a b : Nat) (v : Byte) :
    ((m.write a v).read b).isSome = (decide (b = a) || (m.read b).isSome) := by
  rw [m.read_write]; split <;> simp [*]

/-- `rising` as a chain: the head is below every address of the tail. -/
theorem Memory.rising_cons (c : Host.Cell) (m : Memory) :
    Memory.rising (c :: m) = true ↔ (∀ d ∈ m, c.1 < d.1) ∧ Memory.rising m = true := by
  induction m generalizing c with
  | nil => simp [Memory.rising]
  | cons d m ih =>
    simp only [Memory.rising, Bool.and_eq_true, decide_eq_true_eq, ih d, List.mem_cons, forall_eq_or_imp]
    constructor
    · rintro ⟨hcd, hd, hm⟩
      exact ⟨⟨hcd, fun e he => lt_trans hcd (hd e he)⟩, hd, hm⟩
    · rintro ⟨⟨hcd, _⟩, hd, hm⟩
      exact ⟨hcd, hd, hm⟩

/-- Every entry after a write is the written one or an old one. -/
theorem Memory.mem_write (m : Memory) (a : Nat) (v : Byte) (d : Host.Cell) (h : d ∈ m.write a v) :
    d = (a, v) ∨ d ∈ m := by
  induction m with
  | nil => simpa [Memory.write] using h
  | cons c m ih =>
    unfold Memory.write at h
    split at h
    · simpa using h
    · split at h
      · rcases List.mem_cons.1 h with h | h
        · exact .inl h
        · exact .inr (List.mem_cons_of_mem _ h)
      · rcases List.mem_cons.1 h with h | h
        · exact .inr (h ▸ List.mem_cons_self)
        · exact (ih h).imp_right (List.mem_cons_of_mem _)

/-- A write keeps the addresses rising. -/
theorem Memory.rising_write (m : Memory) (a : Nat) (v : Byte) (h : m.rising = true) :
    (m.write a v).rising = true := by
  induction m with
  | nil => rfl
  | cons c m ih =>
    have hc := (Memory.rising_cons c m).1 h
    unfold Memory.write
    split
    · rename_i hac
      refine (Memory.rising_cons _ _).2 ⟨fun d hd => ?_, h⟩
      rcases List.mem_cons.1 hd with rfl | hd
      · exact hac
      · exact lt_trans hac (hc.1 d hd)
    · split
      · rename_i _ hac
        exact (Memory.rising_cons _ _).2 ⟨fun d hd => hac ▸ hc.1 d hd, hc.2⟩
      · rename_i h1 h2
        refine (Memory.rising_cons _ _).2 ⟨fun d hd => ?_, ih hc.2⟩
        rcases Memory.mem_write m a v d hd with rfl | hd
        · show c.1 < a
          omega
        · exact hc.1 d hd

/-- A write to an address of `B` keeps the canonical form. -/
theorem Memory.wf_write (m : Memory) (a : Nat) (v : Byte) (h : m.wf = true) (ha : a < 64) :
    (m.write a v).wf = true := by
  simp only [Memory.wf, Bool.and_eq_true, List.all_eq_true, decide_eq_true_eq] at h ⊢
  refine ⟨Memory.rising_write m a v h.1, fun d hd => ?_⟩
  rcases Memory.mem_write m a v d hd with rfl | hd
  · exact ha
  · exact h.2 d hd

/-- `MemWrite` keeps the canonical form (R10). -/
theorem memWrite1_wf (m b : Memory) (a : Nat) (v : Byte) (h : m.wf = true) (hb : memWrite1 m a v = .ok b) :
    b.wf = true := by
  unfold memWrite1 at hb
  split at hb
  · cases hb; exact Memory.wf_write m a v h ‹_›
  · cases hb

/-- An address not listed has no value. -/
theorem Memory.read_eq_none (m : Memory) (a : Nat) (h : ∀ d ∈ m, d.1 ≠ a) : m.read a = none := by
  induction m with
  | nil => rfl
  | cons c m ih =>
    have hc : c.1 ≠ a := h c List.mem_cons_self
    simp [Memory.read, hc, ih fun d hd => h d (List.mem_cons_of_mem _ hd)]

/-- A canonical buffer has no value outside the addresses 0 to 63 (R50). -/
theorem Memory.read_of_wf (m : Memory) (h : m.wf = true) (a : Nat) (ha : 64 ≤ a) : m.read a = none := by
  simp only [Memory.wf, Bool.and_eq_true, List.all_eq_true, decide_eq_true_eq] at h
  refine Memory.read_eq_none m a fun d hd => ?_
  have hd64 : d.1 < 64 := h.2 d hd
  omega

/-- The empty buffer, as reset leaves it, is canonical. -/
theorem Memory.wf_nil : Memory.wf [] = true := rfl

/-- The filled buffer of `withFetchWord` is canonical. -/
theorem fillBlock_wf (m : Memory) : (fillBlock m).wf = true := by
  simp [fillBlock, Memory.wf, Memory.rising, List.range_succ_eq_map, Config.blockBytes]

theorem reset_memory_wf : State.reset.B.wf = true := rfl

end Sys2Proof.Machine
end

