-- ==== Sys2Proof/Laws/State.lean ====
section
/-! SUPPORT. One lemma per field for each update of the state that the meanings share, so that no proof unfolds a record
update. -/

namespace Sys2Proof.Machine

/-! ### A response -/

@[simp] theorem respond_H (st : ErrCode) (d : Word) (s : State) : (respond st d s).H = s.H := rfl
@[simp] theorem respond_R (st : ErrCode) (d : Word) (s : State) : (respond st d s).R = s.R := rfl
@[simp] theorem respond_W (st : ErrCode) (d : Word) (s : State) : (respond st d s).W = s.W := rfl
@[simp] theorem respond_B (st : ErrCode) (d : Word) (s : State) : (respond st d s).B = s.B := rfl
@[simp] theorem respond_PH (st : ErrCode) (d : Word) (s : State) : (respond st d s).PH = s.PH := rfl
@[simp] theorem respond_T (st : ErrCode) (d : Word) (s : State) : (respond st d s).T = s.T := rfl
@[simp] theorem respond_N (st : ErrCode) (d : Word) (s : State) : (respond st d s).N = s.N := rfl
@[simp] theorem respond_LEN (st : ErrCode) (d : Word) (s : State) : (respond st d s).LEN = s.LEN := rfl
@[simp] theorem respond_RS (st : ErrCode) (d : Word) (s : State) : (respond st d s).RS = s.RS := rfl
@[simp] theorem respond_ERRC (st : ErrCode) (d : Word) (s : State) : (respond st d s).ERRC = s.ERRC := rfl
@[simp] theorem respond_RSP (st : ErrCode) (d : Word) (s : State) : (respond st d s).RSP = s.RSP ++ [{ st := st, data := d }] := rfl
@[simp] theorem respond_cmds (st : ErrCode) (d : Word) (s : State) : (respond st d s).cmds = s.cmds := rfl
@[simp] theorem respond_edges (st : ErrCode) (d : Word) (s : State) : (respond st d s).edges = s.edges := rfl
@[simp] theorem respond_resets (st : ErrCode) (d : Word) (s : State) : (respond st d s).resets = s.resets := rfl
@[simp] theorem respond_chipIndex (st : ErrCode) (d : Word) (s : State) : (respond st d s).chipIndex = s.chipIndex := rfl

/-! ### A used edge -/

@[simp] theorem nextEdge_H (s : State) : (s.nextEdge).H = s.H := rfl
@[simp] theorem nextEdge_R (s : State) : (s.nextEdge).R = s.R := rfl
@[simp] theorem nextEdge_W (s : State) : (s.nextEdge).W = s.W := rfl
@[simp] theorem nextEdge_B (s : State) : (s.nextEdge).B = s.B := rfl
@[simp] theorem nextEdge_PH (s : State) : (s.nextEdge).PH = s.PH := rfl
@[simp] theorem nextEdge_T (s : State) : (s.nextEdge).T = s.T := rfl
@[simp] theorem nextEdge_N (s : State) : (s.nextEdge).N = s.N := rfl
@[simp] theorem nextEdge_LEN (s : State) : (s.nextEdge).LEN = s.LEN := rfl
@[simp] theorem nextEdge_RS (s : State) : (s.nextEdge).RS = s.RS := rfl
@[simp] theorem nextEdge_ERRC (s : State) : (s.nextEdge).ERRC = s.ERRC := rfl
@[simp] theorem nextEdge_RSP (s : State) : (s.nextEdge).RSP = s.RSP := rfl
@[simp] theorem nextEdge_cmds (s : State) : (s.nextEdge).cmds = s.cmds := rfl
@[simp] theorem nextEdge_edges (s : State) : (s.nextEdge).edges = s.edges.tail := rfl
@[simp] theorem nextEdge_resets (s : State) : (s.nextEdge).resets = s.resets := rfl
@[simp] theorem nextEdge_chipIndex (s : State) : (s.nextEdge).chipIndex = s.chipIndex := rfl

/-! ### A used edge and word -/

@[simp] theorem takeCommand_H (s : State) : (s.takeCommand).H = s.H := rfl
@[simp] theorem takeCommand_R (s : State) : (s.takeCommand).R = s.R := rfl
@[simp] theorem takeCommand_W (s : State) : (s.takeCommand).W = s.W := rfl
@[simp] theorem takeCommand_B (s : State) : (s.takeCommand).B = s.B := rfl
@[simp] theorem takeCommand_PH (s : State) : (s.takeCommand).PH = s.PH := rfl
@[simp] theorem takeCommand_T (s : State) : (s.takeCommand).T = s.T := rfl
@[simp] theorem takeCommand_N (s : State) : (s.takeCommand).N = s.N := rfl
@[simp] theorem takeCommand_LEN (s : State) : (s.takeCommand).LEN = s.LEN := rfl
@[simp] theorem takeCommand_RS (s : State) : (s.takeCommand).RS = s.RS := rfl
@[simp] theorem takeCommand_ERRC (s : State) : (s.takeCommand).ERRC = s.ERRC := rfl
@[simp] theorem takeCommand_RSP (s : State) : (s.takeCommand).RSP = s.RSP := rfl
@[simp] theorem takeCommand_cmds (s : State) : (s.takeCommand).cmds = s.cmds.tail := rfl
@[simp] theorem takeCommand_edges (s : State) : (s.takeCommand).edges = s.edges.tail := rfl
@[simp] theorem takeCommand_resets (s : State) : (s.takeCommand).resets = s.resets := rfl
@[simp] theorem takeCommand_chipIndex (s : State) : (s.takeCommand).chipIndex = s.chipIndex := rfl

/-! ### A completed block -/

@[simp] theorem blockComplete_H (r : Phase) (s : State) : (blockComplete r s).H = s.H := rfl
@[simp] theorem blockComplete_R (r : Phase) (s : State) : (blockComplete r s).R = s.R := rfl
@[simp] theorem blockComplete_W (r : Phase) (s : State) : (blockComplete r s).W = s.W := rfl
@[simp] theorem blockComplete_B (r : Phase) (s : State) : (blockComplete r s).B = s.B := rfl
@[simp] theorem blockComplete_PH (r : Phase) (s : State) : (blockComplete r s).PH = .schld := rfl
@[simp] theorem blockComplete_T (r : Phase) (s : State) : (blockComplete r s).T = 0 := rfl
@[simp] theorem blockComplete_N (r : Phase) (s : State) : (blockComplete r s).N = s.N := rfl
@[simp] theorem blockComplete_LEN (r : Phase) (s : State) : (blockComplete r s).LEN = s.LEN := rfl
@[simp] theorem blockComplete_RS (r : Phase) (s : State) : (blockComplete r s).RS = r := rfl
@[simp] theorem blockComplete_ERRC (r : Phase) (s : State) : (blockComplete r s).ERRC = s.ERRC := rfl
@[simp] theorem blockComplete_RSP (r : Phase) (s : State) : (blockComplete r s).RSP = s.RSP := rfl
@[simp] theorem blockComplete_cmds (r : Phase) (s : State) : (blockComplete r s).cmds = s.cmds := rfl
@[simp] theorem blockComplete_edges (r : Phase) (s : State) : (blockComplete r s).edges = s.edges := rfl
@[simp] theorem blockComplete_resets (r : Phase) (s : State) : (blockComplete r s).resets = s.resets := rfl
@[simp] theorem blockComplete_chipIndex (r : Phase) (s : State) : (blockComplete r s).chipIndex = s.chipIndex := rfl

/-! ### The next index -/

@[simp] theorem advance_H (l : BitVec 7) (p q : Phase) (s : State) : (advance l p q s).H = s.H := rfl
@[simp] theorem advance_R (l : BitVec 7) (p q : Phase) (s : State) : (advance l p q s).R = s.R := rfl
@[simp] theorem advance_W (l : BitVec 7) (p q : Phase) (s : State) : (advance l p q s).W = s.W := rfl
@[simp] theorem advance_B (l : BitVec 7) (p q : Phase) (s : State) : (advance l p q s).B = s.B := rfl
@[simp] theorem advance_PH (l : BitVec 7) (p q : Phase) (s : State) : (advance l p q s).PH = if s.T + 1#7 = l then p else q := rfl
@[simp] theorem advance_T (l : BitVec 7) (p q : Phase) (s : State) : (advance l p q s).T = s.T + 1#7 := rfl
@[simp] theorem advance_N (l : BitVec 7) (p q : Phase) (s : State) : (advance l p q s).N = s.N := rfl
@[simp] theorem advance_LEN (l : BitVec 7) (p q : Phase) (s : State) : (advance l p q s).LEN = s.LEN := rfl
@[simp] theorem advance_RS (l : BitVec 7) (p q : Phase) (s : State) : (advance l p q s).RS = s.RS := rfl
@[simp] theorem advance_ERRC (l : BitVec 7) (p q : Phase) (s : State) : (advance l p q s).ERRC = s.ERRC := rfl
@[simp] theorem advance_RSP (l : BitVec 7) (p q : Phase) (s : State) : (advance l p q s).RSP = s.RSP := rfl
@[simp] theorem advance_cmds (l : BitVec 7) (p q : Phase) (s : State) : (advance l p q s).cmds = s.cmds := rfl
@[simp] theorem advance_edges (l : BitVec 7) (p q : Phase) (s : State) : (advance l p q s).edges = s.edges := rfl
@[simp] theorem advance_resets (l : BitVec 7) (p q : Phase) (s : State) : (advance l p q s).resets = s.resets := rfl
@[simp] theorem advance_chipIndex (l : BitVec 7) (p q : Phase) (s : State) : (advance l p q s).chipIndex = s.chipIndex := rfl

/-! ### A reset edge -/

@[simp] theorem resetEdge_H (s : State) : (resetEdge s).H = Vector.ofFn fun k => Config.resetH s.chipIndex s.resets k.val := rfl
@[simp] theorem resetEdge_R (s : State) : (resetEdge s).R = Vector.ofFn fun k => Config.resetR s.chipIndex s.resets k.val := rfl
@[simp] theorem resetEdge_W (s : State) : (resetEdge s).W = Vector.ofFn fun t => Config.resetW s.chipIndex s.resets t.val := rfl
@[simp] theorem resetEdge_B (s : State) : (resetEdge s).B = [] := rfl
@[simp] theorem resetEdge_PH (s : State) : (resetEdge s).PH = .idle := rfl
@[simp] theorem resetEdge_T (s : State) : (resetEdge s).T = 0 := rfl
@[simp] theorem resetEdge_N (s : State) : (resetEdge s).N = 0 := rfl
@[simp] theorem resetEdge_LEN (s : State) : (resetEdge s).LEN = 0#64 := rfl
@[simp] theorem resetEdge_RS (s : State) : (resetEdge s).RS = .absorb := rfl
@[simp] theorem resetEdge_ERRC (s : State) : (resetEdge s).ERRC = .ok := rfl
@[simp] theorem resetEdge_RSP (s : State) : (resetEdge s).RSP = s.RSP := rfl
@[simp] theorem resetEdge_cmds (s : State) : (resetEdge s).cmds = s.cmds := rfl
@[simp] theorem resetEdge_edges (s : State) : (resetEdge s).edges = s.edges := rfl
@[simp] theorem resetEdge_resets (s : State) : (resetEdge s).resets = s.resets + 1 := rfl
@[simp] theorem resetEdge_chipIndex (s : State) : (resetEdge s).chipIndex = s.chipIndex := rfl

/-! ### A plain edge -/

@[simp] theorem plainEdge_H (s : State) : (plainEdge s).H = s.H := rfl
@[simp] theorem plainEdge_R (s : State) : (plainEdge s).R = s.R := rfl
@[simp] theorem plainEdge_W (s : State) : (plainEdge s).W = s.W := rfl
@[simp] theorem plainEdge_B (s : State) : (plainEdge s).B = s.B := rfl
@[simp] theorem plainEdge_PH (s : State) : (plainEdge s).PH = s.PH := rfl
@[simp] theorem plainEdge_T (s : State) : (plainEdge s).T = s.T := rfl
@[simp] theorem plainEdge_N (s : State) : (plainEdge s).N = s.N := rfl
@[simp] theorem plainEdge_LEN (s : State) : (plainEdge s).LEN = s.LEN := rfl
@[simp] theorem plainEdge_RS (s : State) : (plainEdge s).RS = s.RS := rfl
@[simp] theorem plainEdge_ERRC (s : State) : (plainEdge s).ERRC = s.ERRC := rfl
@[simp] theorem plainEdge_RSP (s : State) : (plainEdge s).RSP = s.RSP := rfl
@[simp] theorem plainEdge_cmds (s : State) : (plainEdge s).cmds = s.cmds := rfl
@[simp] theorem plainEdge_edges (s : State) : (plainEdge s).edges = { rst := false, offer := true } :: s.edges := rfl
@[simp] theorem plainEdge_resets (s : State) : (plainEdge s).resets = s.resets := rfl
@[simp] theorem plainEdge_chipIndex (s : State) : (plainEdge s).chipIndex = s.chipIndex := rfl

/-! ### An exception (R219) -/

@[simp] theorem raise_H (c : ErrCode) (s : State) : (raise c s).H = s.H := by
  unfold raise; split <;> simp
@[simp] theorem raise_R (c : ErrCode) (s : State) : (raise c s).R = s.R := by
  unfold raise; split <;> simp
@[simp] theorem raise_W (c : ErrCode) (s : State) : (raise c s).W = s.W := by
  unfold raise; split <;> simp
@[simp] theorem raise_B (c : ErrCode) (s : State) : (raise c s).B = s.B := by
  unfold raise; split <;> simp
@[simp] theorem raise_PH (c : ErrCode) (s : State) : (raise c s).PH = .error := by
  unfold raise; split <;> simp [*]
@[simp] theorem raise_T (c : ErrCode) (s : State) : (raise c s).T = s.T := by
  unfold raise; split <;> simp
@[simp] theorem raise_N (c : ErrCode) (s : State) : (raise c s).N = s.N := by
  unfold raise; split <;> simp
@[simp] theorem raise_LEN (c : ErrCode) (s : State) : (raise c s).LEN = s.LEN := by
  unfold raise; split <;> simp
@[simp] theorem raise_RS (c : ErrCode) (s : State) : (raise c s).RS = s.RS := by
  unfold raise; split <;> simp
@[simp] theorem raise_ERRC (c : ErrCode) (s : State) :
    (raise c s).ERRC = if s.PH = .error then s.ERRC else c := by
  unfold raise; split <;> simp
@[simp] theorem raise_RSP (c : ErrCode) (s : State) :
    (raise c s).RSP = s.RSP ++ [{ st := c, data := 0#32 }] := by
  unfold raise; split <;> simp
@[simp] theorem raise_cmds (c : ErrCode) (s : State) : (raise c s).cmds = s.cmds := by
  unfold raise; split <;> simp
@[simp] theorem raise_edges (c : ErrCode) (s : State) : (raise c s).edges = s.edges := by
  unfold raise; split <;> simp
@[simp] theorem raise_resets (c : ErrCode) (s : State) : (raise c s).resets = s.resets := by
  unfold raise; split <;> simp
@[simp] theorem raise_chipIndex (c : ErrCode) (s : State) : (raise c s).chipIndex = s.chipIndex := by
  unfold raise; split <;> simp

/-- In `ERROR` an exception only emits its response (R220). -/
theorem raise_of_error (c : ErrCode) (s : State) (h : s.PH = .error) : raise c s = respond c 0#32 s := by
  simp [raise, h]

/-- Outside `ERROR` an exception records its cause and enters `ERROR` (R219). -/
theorem raise_of_ne_error (c : ErrCode) (s : State) (h : s.PH ≠ .error) :
    raise c s = respond c 0#32 { s with ERRC := c, PH := .error } := by
  simp [raise, h]

/-! ### `nextAfterAppend` -/

@[simp] theorem nextAfterAppend_H (r : Phase) (s : State) :
    (nextAfterAppend r s).H = s.H := by
  unfold nextAfterAppend; split_ifs <;> rfl
@[simp] theorem nextAfterAppend_R (r : Phase) (s : State) :
    (nextAfterAppend r s).R = s.R := by
  unfold nextAfterAppend; split_ifs <;> rfl
@[simp] theorem nextAfterAppend_W (r : Phase) (s : State) :
    (nextAfterAppend r s).W = s.W := by
  unfold nextAfterAppend; split_ifs <;> rfl
@[simp] theorem nextAfterAppend_B (r : Phase) (s : State) :
    (nextAfterAppend r s).B = s.B := by
  unfold nextAfterAppend; split_ifs <;> rfl
@[simp] theorem nextAfterAppend_PH (r : Phase) (s : State) :
    (nextAfterAppend r s).PH = if s.N = 64#7 then .schld else if s.N = 56#7 then .padl else .padz := by
  unfold nextAfterAppend; split_ifs <;> rfl
@[simp] theorem nextAfterAppend_T (r : Phase) (s : State) :
    (nextAfterAppend r s).T = if s.N = 64#7 then 0#7 else s.T := by
  unfold nextAfterAppend; split_ifs <;> rfl
@[simp] theorem nextAfterAppend_N (r : Phase) (s : State) :
    (nextAfterAppend r s).N = s.N := by
  unfold nextAfterAppend; split_ifs <;> rfl
@[simp] theorem nextAfterAppend_LEN (r : Phase) (s : State) :
    (nextAfterAppend r s).LEN = s.LEN := by
  unfold nextAfterAppend; split_ifs <;> rfl
@[simp] theorem nextAfterAppend_RS (r : Phase) (s : State) :
    (nextAfterAppend r s).RS = if s.N = 64#7 then r else s.RS := by
  unfold nextAfterAppend; split_ifs <;> rfl
@[simp] theorem nextAfterAppend_ERRC (r : Phase) (s : State) :
    (nextAfterAppend r s).ERRC = s.ERRC := by
  unfold nextAfterAppend; split_ifs <;> rfl
@[simp] theorem nextAfterAppend_RSP (r : Phase) (s : State) :
    (nextAfterAppend r s).RSP = s.RSP := by
  unfold nextAfterAppend; split_ifs <;> rfl
@[simp] theorem nextAfterAppend_cmds (r : Phase) (s : State) :
    (nextAfterAppend r s).cmds = s.cmds := by
  unfold nextAfterAppend; split_ifs <;> rfl
@[simp] theorem nextAfterAppend_edges (r : Phase) (s : State) :
    (nextAfterAppend r s).edges = s.edges := by
  unfold nextAfterAppend; split_ifs <;> rfl
@[simp] theorem nextAfterAppend_resets (r : Phase) (s : State) :
    (nextAfterAppend r s).resets = s.resets := by
  unfold nextAfterAppend; split_ifs <;> rfl
@[simp] theorem nextAfterAppend_chipIndex (r : Phase) (s : State) :
    (nextAfterAppend r s).chipIndex = s.chipIndex := by
  unfold nextAfterAppend; split_ifs <;> rfl

/-! ### `nextAfterByte` -/

@[simp] theorem nextAfterByte_H (r p : Phase) (s : State) :
    (nextAfterByte r p s).H = s.H := by
  unfold nextAfterByte; split_ifs <;> rfl
@[simp] theorem nextAfterByte_R (r p : Phase) (s : State) :
    (nextAfterByte r p s).R = s.R := by
  unfold nextAfterByte; split_ifs <;> rfl
@[simp] theorem nextAfterByte_W (r p : Phase) (s : State) :
    (nextAfterByte r p s).W = s.W := by
  unfold nextAfterByte; split_ifs <;> rfl
@[simp] theorem nextAfterByte_B (r p : Phase) (s : State) :
    (nextAfterByte r p s).B = s.B := by
  unfold nextAfterByte; split_ifs <;> rfl
@[simp] theorem nextAfterByte_PH (r p : Phase) (s : State) :
    (nextAfterByte r p s).PH = if s.N = 64#7 then .schld else p := by
  unfold nextAfterByte; split_ifs <;> rfl
@[simp] theorem nextAfterByte_T (r p : Phase) (s : State) :
    (nextAfterByte r p s).T = if s.N = 64#7 then 0#7 else s.T := by
  unfold nextAfterByte; split_ifs <;> rfl
@[simp] theorem nextAfterByte_N (r p : Phase) (s : State) :
    (nextAfterByte r p s).N = s.N := by
  unfold nextAfterByte; split_ifs <;> rfl
@[simp] theorem nextAfterByte_LEN (r p : Phase) (s : State) :
    (nextAfterByte r p s).LEN = s.LEN := by
  unfold nextAfterByte; split_ifs <;> rfl
@[simp] theorem nextAfterByte_RS (r p : Phase) (s : State) :
    (nextAfterByte r p s).RS = if s.N = 64#7 then r else s.RS := by
  unfold nextAfterByte; split_ifs <;> rfl
@[simp] theorem nextAfterByte_ERRC (r p : Phase) (s : State) :
    (nextAfterByte r p s).ERRC = s.ERRC := by
  unfold nextAfterByte; split_ifs <;> rfl
@[simp] theorem nextAfterByte_RSP (r p : Phase) (s : State) :
    (nextAfterByte r p s).RSP = s.RSP := by
  unfold nextAfterByte; split_ifs <;> rfl
@[simp] theorem nextAfterByte_cmds (r p : Phase) (s : State) :
    (nextAfterByte r p s).cmds = s.cmds := by
  unfold nextAfterByte; split_ifs <;> rfl
@[simp] theorem nextAfterByte_edges (r p : Phase) (s : State) :
    (nextAfterByte r p s).edges = s.edges := by
  unfold nextAfterByte; split_ifs <;> rfl
@[simp] theorem nextAfterByte_resets (r p : Phase) (s : State) :
    (nextAfterByte r p s).resets = s.resets := by
  unfold nextAfterByte; split_ifs <;> rfl
@[simp] theorem nextAfterByte_chipIndex (r p : Phase) (s : State) :
    (nextAfterByte r p s).chipIndex = s.chipIndex := by
  unfold nextAfterByte; split_ifs <;> rfl

end Sys2Proof.Machine
end

