-- ==== Sys2Proof/Laws/Ops.lean ====
section
/-! SUPPORT. One lemma for each shared operation, saying once everything it can do. -/

namespace Sys2Proof.Machine

/-- `finish` answers a next state exactly when the operation did not fault. -/
@[simp] theorem finish_ok (t : State) : finish (.ok t) = .next t := rfl

@[simp] theorem finish_error (f : Fault) : finish (.error f) = .fault f := rfl

theorem finish_eq_next (x : Except Fault State) (t : State) : finish x = .next t ↔ x = .ok t := by
  cases x <;> simp

/-- Peels one operation off a sequence that succeeded. -/
theorem bind_eq_ok {α β : Type} (x : Except Fault α) (f : α → Except Fault β) (b : β) :
    (x >>= f) = .ok b ↔ ∃ a, x = .ok a ∧ f a = .ok b := by
  cases x with
  | error e => simp [bind, Except.bind]
  | ok a => simp [bind, Except.bind]

/-- A one-byte read succeeds exactly on a byte of `B` that has a value (R10, R38). -/
theorem memRead1_eq_ok (m : Memory) (a : Nat) (v : Byte) :
    memRead1 m a = .ok v ↔ a < 64 ∧ m.read a = some v := by
  unfold memRead1
  split
  · rename_i h
    cases hr : m.read a <;> simp [show a < 64 from h]
  · rename_i h
    simp [show ¬ a < 64 from h]

/-- A word read succeeds exactly when its four bytes have values, and is their big-endian word (R52). -/
theorem memRead4_eq_ok (m : Memory) (i : Nat) (w : Word) :
    memRead4 m i = .ok w ↔ i ≤ 15 ∧ ∃ b0 b1 b2 b3, m.read (4 * i) = some b0 ∧ m.read (4 * i + 1) = some b1 ∧
      m.read (4 * i + 2) = some b2 ∧ m.read (4 * i + 3) = some b3 ∧ w = assembleWord b0 b1 b2 b3 := by
  unfold memRead4
  simp only [bind_eq_ok, memRead1_eq_ok, pure, Except.pure, Except.ok.injEq]
  constructor
  · rintro ⟨b0, ⟨_, h0⟩, b1, ⟨_, h1⟩, b2, ⟨_, h2⟩, b3, ⟨h, h3⟩, rfl⟩
    exact ⟨by omega, b0, b1, b2, b3, h0, h1, h2, h3, rfl⟩
  · rintro ⟨hi, b0, b1, b2, b3, h0, h1, h2, h3, rfl⟩
    exact ⟨b0, ⟨by omega, h0⟩, b1, ⟨by omega, h1⟩, b2, ⟨by omega, h2⟩, b3, ⟨by omega, h3⟩, rfl⟩

/-- A write succeeds exactly on an address of `B` (R10). -/
theorem memWrite1_eq_ok (m b : Memory) (a : Nat) (v : Byte) :
    memWrite1 m a v = .ok b ↔ a < 64 ∧ b = m.write a v := by
  unfold memWrite1
  split
  · rename_i h
    simp [show a < 64 from h, eq_comm]
  · rename_i h
    simp [show ¬ a < 64 from h]

theorem readWord_eq_ok (v : Vector Word 64) (i : Nat) (w : Word) :
    readWord v i = .ok w ↔ ∃ h : i < 64, w = v[i] := by
  unfold readWord
  split <;> simp [*, eq_comm]

theorem readTap_eq_ok (s : State) (d : Nat) (w : Word) :
    readTap s d = .ok w ↔ ∃ _ : d ≤ s.T.toNat, ∃ h : s.T.toNat - d < 64, w = s.W[s.T.toNat - d] := by
  unfold readTap
  split <;> simp [*, readWord_eq_ok]

theorem writeW_eq_ok (w : Word) (s t : State) :
    writeW w s = .ok t ↔ ∃ h : s.T.toNat < 64, t = { s with W := s.W.set s.T.toNat w } := by
  unfold writeW
  split <;> simp [*, eq_comm]

/-- Everything `appendByte` can do: `B[N] <- v; N <- N + 1` while `N ≤ 63` (R29). -/
theorem appendByte_eq_ok (v : Byte) (s t : State) :
    appendByte v s = .ok t ↔ s.N.toNat < 64 ∧ t = { s with B := s.B.write s.N.toNat v, N := s.N + 1#7 } := by
  unfold appendByte
  simp only [bind_eq_ok, memWrite1_eq_ok, pure, Except.pure, Except.ok.injEq]
  constructor
  · rintro ⟨b, ⟨h, rfl⟩, rfl⟩; exact ⟨h, rfl⟩
  · rintro ⟨h, rfl⟩; exact ⟨_, ⟨h, rfl⟩, rfl⟩

theorem suffixByte_eq_ok (s : State) (v : Byte) :
    suffixByte s = .ok v ↔ (56 ≤ s.N.toNat ∧ s.N.toNat ≤ 63) ∧ v = lenByte s.LEN (s.N.toNat - 56) := by
  unfold suffixByte
  split <;> simp [*, eq_comm]

/-- The big-endian word as a number (R52). -/
theorem assembleWord_toNat (b0 b1 b2 b3 : Byte) :
    (assembleWord b0 b1 b2 b3).toNat = b0.toNat * 2 ^ 24 + b1.toNat * 2 ^ 16 + b2.toNat * 2 ^ 8 + b3.toNat := by
  unfold assembleWord
  have := b0.isLt; have := b1.isLt; have := b2.isLt; have := b3.isLt
  simp only [BitVec.toNat_append, Nat.shiftLeft_eq]
  rw [← Nat.shiftLeft_eq, ← Nat.shiftLeft_eq, ← Nat.shiftLeft_eq,
    ← Nat.shiftLeft_add_eq_or_of_lt (by omega : b1.toNat < 2 ^ 8),
    ← Nat.shiftLeft_add_eq_or_of_lt (by omega : b2.toNat < 2 ^ 8),
    ← Nat.shiftLeft_add_eq_or_of_lt (by omega : b3.toNat < 2 ^ 8)]
  simp only [Nat.shiftLeft_eq]
  omega

end Sys2Proof.Machine
end

