-- ==== Sys2Proof/Laws/Meanings.lean ====
section
/-! SUPPORT. What each meaning can do when it answers a next state: one lemma per instruction, cited instead of unfolding
the meaning. -/

namespace Sys2Proof.Machine

theorem execData_eq_next (b : Byte) (s t : State) :
    execData b s = .next t ↔
      (s.PH ≠ .absorb ∧ t = raise .illegalCommand s) ∨
      (s.PH = .absorb ∧ s.LEN = Config.maxLen ∧ t = raise .inputTooLarge s) ∨
      (s.PH = .absorb ∧ s.LEN ≠ Config.maxLen ∧ s.N.toNat < 64 ∧
        t = respond .ok 0#32 (nextAfterByte .absorb .absorb
          { s with B := s.B.write s.N.toNat b, N := s.N + 1#7, LEN := s.LEN + 8#64 })) := by
  unfold execData
  by_cases hp : s.PH = .absorb
  · by_cases hl : s.LEN = Config.maxLen
    · simp [hp, hl, eq_comm]
    · simp only [hp, hl, finish_eq_next, bind_eq_ok, appendByte_eq_ok, pure, Except.pure, Except.ok.injEq,
        ne_eq, not_true_eq_false, not_false_eq_true, if_false, false_and, false_or, true_and]
      constructor
      · rintro ⟨u, ⟨h, rfl⟩, rfl⟩; exact ⟨h, rfl⟩
      · rintro ⟨h, rfl⟩; exact ⟨_, ⟨h, rfl⟩, rfl⟩
  · simp [hp, eq_comm]

theorem execFinal_eq_next (s t : State) :
    execFinal s = .next t ↔
      (s.PH ≠ .absorb ∧ t = raise .illegalCommand s) ∨
      (s.PH = .absorb ∧ t = respond .ok 0#32 { s with PH := .padt }) := by
  unfold execFinal
  split <;> simp_all [eq_comm]

theorem execRdh_eq_next (k : Byte) (s t : State) :
    execRdh k s = .next t ↔
      ((s.PH ≠ .done ∨ 8 ≤ k.toNat) ∧ t = raise .illegalCommand s) ∨
      (s.PH = .done ∧ ∃ h : k.toNat < 8, t = respond .ok s.H[k.toNat] s) := by
  unfold execRdh
  split
  · simp_all [eq_comm]
  · split
    · rename_i hk; simp_all [eq_comm]
    · rename_i hk; simp_all [eq_comm]

theorem execRdx_eq_next (j : Byte) (s t : State) :
    execRdx j s = .next t ↔
      ((s.PH ≠ .done ∨ 64 ≤ j.toNat) ∧ t = raise .illegalCommand s) ∨
      (s.PH = .done ∧ ∃ h : j.toNat < 64, t = respond .ok ((hexChar s.H ⟨j.toNat, h⟩).setWidth 32) s) := by
  unfold execRdx
  split
  · simp_all [eq_comm]
  · split
    · rename_i hk; simp_all [eq_comm]
    · rename_i hk; simp_all [eq_comm]

theorem execPadt_eq_next (s t : State) :
    execPadt s = .next t ↔ s.N.toNat < 64 ∧
      t = nextAfterAppend .padz { s with B := s.B.write s.N.toNat 0x80#8, N := s.N + 1#7 } := by
  unfold execPadt
  simp only [finish_eq_next, bind_eq_ok, appendByte_eq_ok, pure, Except.pure, Except.ok.injEq]
  constructor
  · rintro ⟨u, ⟨h, rfl⟩, rfl⟩; exact ⟨h, rfl⟩
  · rintro ⟨h, rfl⟩; exact ⟨_, ⟨h, rfl⟩, rfl⟩

theorem execPadz_eq_next (s t : State) :
    execPadz s = .next t ↔ s.N.toNat < 64 ∧
      t = nextAfterAppend .padz { s with B := s.B.write s.N.toNat 0x00#8, N := s.N + 1#7 } := by
  unfold execPadz
  simp only [finish_eq_next, bind_eq_ok, appendByte_eq_ok, pure, Except.pure, Except.ok.injEq]
  constructor
  · rintro ⟨u, ⟨h, rfl⟩, rfl⟩; exact ⟨h, rfl⟩
  · rintro ⟨h, rfl⟩; exact ⟨_, ⟨h, rfl⟩, rfl⟩

theorem execPadl_eq_next (s t : State) :
    execPadl s = .next t ↔ (56 ≤ s.N.toNat ∧ s.N.toNat ≤ 63) ∧
      t = nextAfterByte .done .padl
        { s with B := s.B.write s.N.toNat (lenByte s.LEN (s.N.toNat - 56)), N := s.N + 1#7 } := by
  unfold execPadl
  simp only [finish_eq_next, bind_eq_ok, appendByte_eq_ok, suffixByte_eq_ok, pure, Except.pure, Except.ok.injEq]
  constructor
  · rintro ⟨v, ⟨h, rfl⟩, u, ⟨_, rfl⟩, rfl⟩; exact ⟨h, rfl⟩
  · rintro ⟨h, rfl⟩; exact ⟨_, ⟨h, rfl⟩, _, ⟨by omega, rfl⟩, rfl⟩

theorem execSchld_eq_next (s t : State) :
    execSchld s = .next t ↔ ∃ w, memRead4 s.B s.T.toNat = .ok w ∧ ∃ h : s.T.toNat < 64,
      t = advance 16#7 .schex .schld { s with W := s.W.set s.T.toNat w } := by
  unfold execSchld
  simp only [finish_eq_next, bind_eq_ok, writeW_eq_ok, pure, Except.pure, Except.ok.injEq]
  constructor
  · rintro ⟨w, hw, u, ⟨h, rfl⟩, rfl⟩; exact ⟨w, hw, h, rfl⟩
  · rintro ⟨w, hw, h, rfl⟩; exact ⟨w, hw, _, ⟨h, rfl⟩, rfl⟩

theorem execSchex_eq_next (s t : State) :
    execSchex s = .next t ↔ ∃ _ : 16 ≤ s.T.toNat, ∃ h : s.T.toNat < 64,
      t = advance 64#7 .load .schex
        { s with
          W := s.W.set s.T.toNat
            (add32 (add32 (add32 (ssig0 s.W[s.T.toNat - 15]) s.W[s.T.toNat - 16])
              (ssig1 s.W[s.T.toNat - 2])) s.W[s.T.toNat - 7]) } := by
  unfold execSchex
  simp only [finish_eq_next, bind_eq_ok, readTap_eq_ok, writeW_eq_ok, pure, Except.pure, Except.ok.injEq]
  constructor
  · rintro ⟨_, ⟨_, _, rfl⟩, _, ⟨h16, _, rfl⟩, _, ⟨_, _, rfl⟩, _, ⟨_, _, rfl⟩, u, ⟨h, rfl⟩, rfl⟩
    exact ⟨h16, h, rfl⟩
  · rintro ⟨h16, h, rfl⟩
    exact ⟨_, ⟨by omega, by omega, rfl⟩, _, ⟨by omega, by omega, rfl⟩, _, ⟨by omega, by omega, rfl⟩,
      _, ⟨by omega, by omega, rfl⟩, _, ⟨h, rfl⟩, rfl⟩

theorem execRound_eq_next (s t : State) :
    execRound s = .next t ↔ ∃ h : s.T.toNat < 64,
      t = advance 64#7 .fold .round { s with R := roundWith K[s.T.toNat] s.W[s.T.toNat] s.R } := by
  unfold execRound
  simp only [finish_eq_next, bind_eq_ok, readWord_eq_ok, pure, Except.pure, Except.ok.injEq]
  constructor
  · rintro ⟨_, ⟨_, rfl⟩, _, ⟨h, rfl⟩, rfl⟩; exact ⟨h, rfl⟩
  · rintro ⟨h, rfl⟩; exact ⟨_, ⟨h, rfl⟩, _, ⟨h, rfl⟩, rfl⟩

end Sys2Proof.Machine
end

