-- ==== Sys2Proof/Laws/PerInstr.lean ====
section
/-! SUPPORT. Family `MatchesRow`: the word that selects an instruction is a word of its row of spec/opcode_table.json, that
is `(word AND mask) = match` with the row's mask and match (30_encoding.md R73, R79). -/

namespace Sys2Proof.Laws.MatchesRow

open Sys2Proof

/-- A command word of a row. -/
def isCommand (mask row : CmdWord) : InstrWord → Prop
  | .command c => c &&& mask = row
  | .phase _ => False

/-- The phase code of a row (mask 0xF). -/
def isPhase (row : PhaseCode) : InstrWord → Prop
  | .command _ => False
  | .phase p => p = row

/-- The encoding of a well-formed instruction is a word of its row. -/
def Statement (i : Instr) : Prop :=
  i.wf = true →
    match i with
    | .init => isCommand 0xFFF 0x100 (encode i)
    | .data _ => isCommand 0xF00 0x200 (encode i)
    | .final => isCommand 0xFFF 0x300 (encode i)
    | .rdh _ => isCommand 0xFF8 0x400 (encode i)
    | .rdx _ => isCommand 0xFC0 0x500 (encode i)
    | .rds => isCommand 0xFFF 0x600 (encode i)
    | .padt => isPhase 0x2 (encode i)
    | .padz => isPhase 0x3 (encode i)
    | .padl => isPhase 0x4 (encode i)
    | .schld => isPhase 0x5 (encode i)
    | .schex => isPhase 0x6 (encode i)
    | .load => isPhase 0x7 (encode i)
    | .round => isPhase 0x8 (encode i)
    | .fold => isPhase 0x9 (encode i)

theorem init : Statement .init := fun _ => rfl

theorem data (b : Byte) : Statement (.data b) := fun _ => by
  have h : ∀ b : Byte, commandWord 0x2 b &&& 0xF00 = 0x200 := by decide
  exact h b

theorem final : Statement .final := fun _ => rfl

theorem rdh (k : Byte) : Statement (.rdh k) := fun hk => by
  have h : ∀ k : Byte, Instr.wf (.rdh k) = true → commandWord 0x4 k &&& 0xFF8 = 0x400 := by decide
  exact h k hk

theorem rdx (j : Byte) : Statement (.rdx j) := fun hj => by
  have h : ∀ j : Byte, Instr.wf (.rdx j) = true → commandWord 0x5 j &&& 0xFC0 = 0x500 := by decide
  exact h j hj

theorem rds : Statement .rds := fun _ => rfl

theorem padt : Statement .padt := fun _ => rfl

theorem padz : Statement .padz := fun _ => rfl

theorem padl : Statement .padl := fun _ => rfl

theorem schld : Statement .schld := fun _ => rfl

theorem schex : Statement .schex := fun _ => rfl

theorem load : Statement .load := fun _ => rfl

theorem round : Statement .round := fun _ => rfl

theorem fold : Statement .fold := fun _ => rfl

end Sys2Proof.Laws.MatchesRow
end

