-- ==== Sys2Proof/Laws/Step.lean ====
section
/-! SUPPORT. The phase codes, and what a step is: one lemma that says every case of `step` (00_scope.md R12). -/

namespace Sys2Proof.Machine

/-- The micro-operation of an engine phase (R79). -/
def Phase.microOp : Phase → Option Instr
  | .padt => some .padt
  | .padz => some .padz
  | .padl => some .padl
  | .schld => some .schld
  | .schex => some .schex
  | .load => some .load
  | .round => some .round
  | .fold => some .fold
  | .idle => none
  | .absorb => none
  | .done => none
  | .error => none

/-- The codes of the twelve phases select exactly the eight micro-operations (R79). -/
theorem decodePhase_code (p : Phase) :
    decodePhase p.code = match p.microOp with
      | some i => .ok i
      | none => .error (.hostPhase p.code) := by
  cases p <;> rfl

theorem isHost_iff_microOp (p : Phase) : p.isHost = true ↔ p.microOp = none := by
  cases p <;> simp [Phase.isHost, Phase.microOp]

/-- Phase and code determine each other (R79). -/
theorem phaseOfCode_code (p : Phase) : phaseOfCode p.code = some p := by
  cases p <;> rfl

theorem nextEvent_reset (s : State) (h : s.rst = true) : nextEvent s = .reset s.nextEdge := by
  simp [nextEvent, h]

theorem nextEvent_microOp (s : State) (i : Instr) (h : s.rst = false) (hi : s.PH.microOp = some i) :
    nextEvent s = .run i s.nextEdge := by
  simp [nextEvent, h, decodePhase_code, hi]

theorem nextEvent_host (s : State) (h : s.rst = false) (hi : s.PH.isHost = true) :
    nextEvent s = acceptCommand s := by
  simp [nextEvent, h, decodePhase_code, (isHost_iff_microOp _).1 hi]

theorem step_reset (s : State) (h : s.rst = true) : step s = .next (resetEdge s.nextEdge) := by
  simp [step, nextEvent_reset s h]

/-- In an engine phase the step is the phase's micro-operation; the offered commands stay (R185, R194). -/
theorem step_microOp (s : State) (i : Instr) (h : s.rst = false) (hi : s.PH.microOp = some i) :
    step s = exec i s.nextEdge := by
  simp [step, nextEvent_microOp s i h hi]

theorem step_idle (s : State) (h : s.rst = false) (hp : s.PH.isHost = true) (hc : s.cmdPort = none) :
    step s = .next s.nextEdge := by
  simp [step, nextEvent_host s h hp, acceptCommand, hc]

/-- In a host phase the presented word is accepted and its command performed (R74, R185). -/
theorem step_command (s : State) (c : CmdWord) (i : Instr) (h : s.rst = false) (hp : s.PH.isHost = true)
    (hc : s.cmdPort = some c) (hi : decodeCommand c = .ok i) :
    step s = exec i s.takeCommand := by
  simp [step, nextEvent_host s h hp, acceptCommand, hc, hi]

theorem step_illegalWord (s : State) (c : CmdWord) (e : DecodeError) (h : s.rst = false) (hp : s.PH.isHost = true)
    (hc : s.cmdPort = some c) (he : decodeCommand c = .error e) :
    step s = .next (raise .illegalCommand s.takeCommand) := by
  simp [step, nextEvent_host s h hp, acceptCommand, hc, he]

/-- Every case of a step (R12): a reset edge, a micro-operation, an idle edge, an accepted command, an accepted word
that is no command. -/
theorem step_cases (s : State) :
    (s.rst = true ∧ step s = .next (resetEdge s.nextEdge)) ∨
    (s.rst = false ∧ ∃ i, s.PH.microOp = some i ∧ step s = exec i s.nextEdge) ∨
    (s.rst = false ∧ s.PH.isHost = true ∧ s.cmdPort = none ∧ step s = .next s.nextEdge) ∨
    (s.rst = false ∧ s.PH.isHost = true ∧ ∃ c i, s.cmdPort = some c ∧ decodeCommand c = .ok i ∧
      step s = exec i s.takeCommand) ∨
    (s.rst = false ∧ s.PH.isHost = true ∧ ∃ c e, s.cmdPort = some c ∧ decodeCommand c = .error e ∧
      step s = .next (raise .illegalCommand s.takeCommand)) := by
  by_cases hr : s.rst = true
  · exact .inl ⟨hr, step_reset s hr⟩
  · have hr : s.rst = false := by simpa using hr
    cases hm : s.PH.microOp with
    | some i => exact .inr (.inl ⟨hr, i, rfl, step_microOp s i hr hm⟩)
    | none =>
      have hp := (isHost_iff_microOp _).2 hm
      cases hc : s.cmdPort with
      | none => exact .inr (.inr (.inl ⟨hr, hp, rfl, step_idle s hr hp hc⟩))
      | some c =>
        cases hd : decodeCommand c with
        | ok i => exact .inr (.inr (.inr (.inl ⟨hr, hp, c, i, rfl, hd, step_command s c i hr hp hc hd⟩)))
        | error e => exact .inr (.inr (.inr (.inr ⟨hr, hp, c, e, rfl, hd, step_illegalWord s c e hr hp hc hd⟩)))

/-- A decoded command is one of the six (R73). -/
theorem decodeCommand_ok (c : CmdWord) (i : Instr) (h : decodeCommand c = .ok i) :
    i = .init ∨ (∃ b, i = .data b) ∨ i = .final ∨ (∃ k, i = .rdh k) ∨ (∃ j, i = .rdx j) ∨ i = .rds := by
  unfold decodeCommand at h
  split_ifs at h <;> cases h <;> simp

end Sys2Proof.Machine
end

