-- ==== Sys2Proof/Laws/Run.lean ====
section
/-! SUPPORT. Runs: composing them, and the induction that carries an invariant along one. -/

namespace Sys2Proof.Machine

@[simp] theorem run_zero (s : State) : Host.Core.run core 0 s = .next s := rfl

theorem run_succ (k : Nat) (s t : State) (h : step s = .next t) :
    Host.Core.run core (k + 1) s = Host.Core.run core k t := by
  have hs : core.step s = .next t := h
  simp only [Host.Core.run, hs]

/-- A run is a step and then a run. -/
theorem run_succ_eq_next (k : Nat) (s u : State) :
    Host.Core.run core (k + 1) s = .next u ↔ ∃ t, step s = .next t ∧ Host.Core.run core k t = .next u := by
  constructor
  · intro h
    cases hs : step s with
    | next t => exact ⟨t, rfl, by rwa [run_succ k s t hs] at h⟩
    | fault r => simp [Host.Core.run, core, hs] at h
    | refused r => simp [Host.Core.run, core, hs] at h
  · rintro ⟨t, hs, h⟩
    rwa [run_succ k s t hs]

/-- Two runs, one after the other. -/
theorem run_add (j k : Nat) (s t : State) (h : Host.Core.run core j s = .next t) :
    Host.Core.run core (j + k) s = Host.Core.run core k t := by
  induction j generalizing s with
  | zero =>
    rw [run_zero] at h
    cases h
    rw [Nat.zero_add]
  | succ j ih =>
    obtain ⟨u, hs, hu⟩ := (run_succ_eq_next j s t).1 h
    rw [Nat.succ_add, run_succ _ _ _ hs, ih u hu]

/-- What every step keeps, every run keeps. -/
theorem run_keeps (P : State → Prop) (hstep : ∀ s t, P s → step s = .next t → P t) (k : Nat) (s t : State)
    (hs : P s) (h : Host.Core.run core k s = .next t) : P t := by
  induction k generalizing s with
  | zero =>
    rw [run_zero] at h
    cases h
    exact hs
  | succ k ih =>
    obtain ⟨u, hu, h⟩ := (run_succ_eq_next k s t).1 h
    exact ih u (hstep s u hs hu) h

/-- Without a planned reset, `rst` is 0 at the coming edge. -/
theorem rst_of_noReset (s : State) (h : s.noReset) : s.rst = false := by
  unfold State.rst State.edge
  cases he : s.edges with
  | nil => rfl
  | cons e es => exact h e (he ▸ List.mem_cons_self)

/-- Using an edge up keeps that no reset is planned. -/
theorem noReset_nextEdge (s : State) (h : s.noReset) : s.nextEdge.noReset :=
  fun e he => h e (List.mem_of_mem_tail he)

theorem noReset_takeCommand (s : State) (h : s.noReset) : s.takeCommand.noReset :=
  fun e he => h e (List.mem_of_mem_tail he)

end Sys2Proof.Machine
end

