-- ==== Sys2Proof/Tests/Slice0.lean ====
section
/-! SUPPORT. The model's own tests, their expected values from spec/95_test_vectors.md (S2 to S7) or from the encodings
of spec/30_encoding.md, and a witness for the hypotheses of each statement. -/

namespace Sys2Proof.Machine.Test

open Claim

/-! ### Helpers -/

/-- The outcome is a next state with this property. -/
def nextHas (o : Host.Outcome State Fault Refusal) (p : State → Bool) : Bool :=
  match o with
  | .next t => p t
  | .fault _ => false
  | .refused _ => false

/-- The reset state in another phase, with `N`, `T` and `LEN` given. -/
def at_ (p : Phase) (n t : BitVec 7) (len : BitVec 64) : State :=
  { State.reset with PH := p, N := n, T := t, LEN := len }

/-- A full buffer. -/
def bufferOf (bs : List Byte) : Memory := (List.range 64).map fun a => (a, bs.getD a 0)

/-- The one block of `"abc"` (S3). -/
def abcBlock : List Byte := [0x61, 0x62, 0x63, 0x80] ++ List.replicate 59 0x00 ++ [0x18]

/-- The digest of `"abc"` as the hash state (V2). -/
def abcH : Words8 :=
  #v[0xba7816bf, 0x8f01cfea, 0x414140de, 0x5dae2223, 0xb00361a3, 0x96177a9c, 0xb410ff61, 0xf20015ad]

/-- The words the recurrence reads for `W[63]` of `"abc"` (S3). -/
def abcTail : Vector Word 64 :=
  (((State.reset.W.set 47 0x065c43da).set 48 0xfb3e89cb).set 56 0xef57b9cd).set 61 0x668b2ff8

/-- A state of `DONE` that holds the digest of `"abc"`. -/
def doneAbc : State := { at_ .done 0 0 24 with H := abcH, RS := .done }

/-- A host phase with one word presented. -/
def present (c : CmdWord) (s : State) : State := { s with cmds := [c] }

/-- A reset edge is planned next. -/
def rstNext (s : State) : State := { s with edges := [⟨true, true⟩] }

/-! ### WellFormed: the ill-formed terms are refused -/

theorem smoke_rdh_index : (Instr.rdh 8).wf = false ∧ (Instr.rdh 7).wf = true := by decide
theorem smoke_rdx_index : (Instr.rdx 64).wf = false ∧ (Instr.rdx 63).wf = true := by decide

/-! ### Decode: words written out from R70, R71, R73, R79 and S7 -/

theorem test_decode_init : decodeCommand 0b0001_00000000 = .ok .init := by decide
theorem test_decode_data : decodeCommand 0b0010_01100001 = .ok (.data 0x61) := by decide
theorem test_decode_final : decodeCommand 0b0011_00000000 = .ok .final := by decide
theorem test_decode_rdh : decodeCommand 0b0100_00000111 = .ok (.rdh 7) := by decide
theorem test_decode_rdx : decodeCommand 0b0101_00111111 = .ok (.rdx 63) := by decide
theorem test_decode_rds : decodeCommand 0b0110_00000000 = .ok .rds := by decide
theorem test_decode_padt : decodePhase 0b0010 = .ok .padt := by decide
theorem test_decode_padz : decodePhase 0b0011 = .ok .padz := by decide
theorem test_decode_padl : decodePhase 0b0100 = .ok .padl := by decide
theorem test_decode_schld : decodePhase 0b0101 = .ok .schld := by decide
theorem test_decode_schex : decodePhase 0b0110 = .ok .schex := by decide
theorem test_decode_load : decodePhase 0b0111 = .ok .load := by decide
theorem test_decode_round : decodePhase 0b1000 = .ok .round := by decide
theorem test_decode_fold : decodePhase 0b1001 = .ok .fold := by decide

theorem test_decode_reserved_opcodes :
    decodeCommand 0x000 = .error (.reservedOpcode 0) ∧ decodeCommand 0x0ff = .error (.reservedOpcode 0) ∧
    decodeCommand 0x700 = .error (.reservedOpcode 7) ∧ decodeCommand 0xfff = .error (.reservedOpcode 15) := by decide
theorem test_decode_reserved_operands :
    decodeCommand 0x101 = .error (.reservedOperand 0x01) ∧ decodeCommand 0x1ff = .error (.reservedOperand 0xff) ∧
    decodeCommand 0x301 = .error (.reservedOperand 0x01) ∧ decodeCommand 0x408 = .error (.reservedOperand 0x08) ∧
    decodeCommand 0x4ff = .error (.reservedOperand 0xff) ∧ decodeCommand 0x540 = .error (.reservedOperand 0x40) ∧
    decodeCommand 0x5ff = .error (.reservedOperand 0xff) ∧ decodeCommand 0x601 = .error (.reservedOperand 0x01) := by
  decide
theorem test_decode_reserved_phases :
    decodePhase 0 = .error (.hostPhase 0) ∧ decodePhase 11 = .error (.hostPhase 11) ∧
    decodePhase 12 = .error (.reservedPhase 12) ∧ decodePhase 15 = .error (.reservedPhase 15) := by decide

/-! ### Word operations (S5) -/

theorem test_rotr : rotr 0x12345678 7 = 0xf02468ac ∧ rotr 0x80000001 1 = 0xc0000000 ∧ rotr 1 31 = 2 := by decide
theorem test_shr : shr 0x12345678 3 = 0x02468acf ∧ shr 0x12345678 10 = 0x00048d15 := by decide
theorem test_add_wraps : add32 0xffffffff 1 = 0 ∧ add32 0x6a09e667 0x5d6aebcd = 0xc774d234 := by decide
theorem test_ch : ch 0xffff0000 0x12345678 0x9abcdef0 = 0x1234def0 := by decide
theorem test_maj : maj 0xffff0000 0x12345678 0x9abcdef0 = 0x9abc5670 := by decide
theorem test_big_sigmas : bsig0 0x12345678 = 0x66146474 ∧ bsig1 0x12345678 = 0x3561abda := by decide
theorem test_small_sigmas : ssig0 0x12345678 = 0xe7fce6ee ∧ ssig1 0x12345678 = 0xa1f78649 := by decide

/-! ### `STATUS` and responses (S7) -/

theorem test_status_absorb : status (at_ .absorb 56 0 0) = 0x00003801 := by decide
theorem test_status_done : status doneAbc = 0x0000004a := by decide
theorem test_status_error :
    status { at_ .error 63 0 0 with ERRC := .inputTooLarge } = 0x00003f1b ∧
    status { at_ .error 1 0 0 with ERRC := .illegalCommand } = 0x0000012b := by decide
theorem test_response_word : Response.word ⟨.illegalCommand, 0xf⟩ = 0x20000000f := by decide

/-! ### Commands: one step from a small state (S7 and program P1) -/

theorem test_init :
    nextHas (step (present 0x100 { doneAbc with ERRC := .ok }))
      (fun t => t.PH == .absorb && t.H == IV && t.LEN == 0 && t.RS == .absorb && t.RSP == [⟨.ok, 0⟩]) = true := by
  decide
theorem test_data :
    nextHas (step (present 0x2aa (at_ .absorb 62 0 (BitVec.ofNat 64 (2 ^ 64 - 16)))))
      (fun t => t.PH == .absorb && t.B == [(62, 0xaa)] && t.N == 63 && t.LEN == 0xfffffffffffffff8) = true := by
  decide
theorem test_data_too_large :
    nextHas (step (present 0x2bb (at_ .absorb 63 0 0xfffffffffffffff8)))
      (fun t => t.PH == .error && t.ERRC == .inputTooLarge && t.B == [] && t.N == 63 &&
        t.RSP == [⟨.inputTooLarge, 0⟩]) = true := by
  decide
theorem test_final :
    nextHas (step (present 0x300 (at_ .absorb 3 0 24)))
      (fun t => t.PH == .padt && t.N == 3 && t.RSP == [⟨.ok, 0⟩]) = true := by
  decide
theorem test_final_illegal :
    nextHas (step (present 0x300 (at_ .idle 0 0 0)))
      (fun t => t.PH == .error && t.ERRC == .illegalCommand && t.RSP == [⟨.illegalCommand, 0⟩]) = true := by
  decide
theorem test_rdh :
    nextHas (step (present 0x407 doneAbc)) (fun t => t.PH == .done && t.RSP == [⟨.ok, 0xf20015ad⟩]) = true := by
  decide
theorem test_rdh_keeps_first_cause :
    nextHas (step (present 0x400 { at_ .error 63 0 0 with ERRC := .inputTooLarge }))
      (fun t => t.PH == .error && t.ERRC == .inputTooLarge && t.RSP == [⟨.illegalCommand, 0⟩]) = true := by
  decide
theorem test_rdx :
    nextHas (step (present 0x502 doneAbc)) (fun t => t.RSP == [⟨.ok, 0x37⟩]) = true := by
  decide
theorem test_rdx_last :
    nextHas (step (present 0x53f doneAbc)) (fun t => t.RSP == [⟨.ok, 0x64⟩]) = true := by
  decide
theorem test_rds :
    nextHas (step (present 0x600 (at_ .absorb 3 0 24))) (fun t => t.PH == .absorb && t.RSP == [⟨.ok, 0x301⟩]) = true := by
  decide

/-! ### Micro-operations: one step from a small state (S2, S3, S4) -/

theorem test_padt :
    nextHas (step (at_ .padt 55 0 0)) (fun t => t.B == [(55, 0x80)] && t.N == 56 && t.PH == .padl) = true := by
  decide
theorem test_padt_block :
    nextHas (step (at_ .padt 63 0 0))
      (fun t => t.B == [(63, 0x80)] && t.N == 64 && t.PH == .schld && t.RS == .padz && t.T == 0) = true := by
  decide
theorem test_padz :
    nextHas (step (at_ .padz 54 0 0)) (fun t => t.B == [(54, 0x00)] && t.N == 55 && t.PH == .padz) = true := by
  decide
theorem test_padz_block :
    nextHas (step (at_ .padz 63 0 0)) (fun t => t.N == 64 && t.PH == .schld && t.RS == .padz) = true := by
  decide
theorem test_padl :
    nextHas (step (at_ .padl 62 0 0x1c0)) (fun t => t.B == [(62, 0x01)] && t.N == 63 && t.PH == .padl) = true := by
  decide
theorem test_padl_block :
    nextHas (step (at_ .padl 63 0 0xfffffffffffffff8))
      (fun t => t.B == [(63, 0xf8)] && t.N == 64 && t.PH == .schld && t.RS == .done) = true := by
  decide
theorem test_schld :
    nextHas (step { at_ .schld 64 1 0 with B := [(4, 0x12), (5, 0x34), (6, 0x56), (7, 0x78)] })
      (fun t => t.W[1] == 0x12345678 && t.T == 2 && t.PH == .schld) = true := by
  decide
theorem test_schex :
    nextHas (step { at_ .schex 64 63 0 with W := abcTail })
      (fun t => t.W[63] == 0x12b1edeb && t.T == 64 && t.PH == .load) = true := by
  decide
theorem test_load :
    nextHas (step { at_ .load 64 64 0 with H := IV }) (fun t => t.R == IV && t.T == 0 && t.PH == .round) = true := by
  decide
theorem test_round :
    nextHas (step { at_ .round 64 0 0 with R := IV, W := State.reset.W.set 0 0x61626380 })
      (fun t => t.R == #v[0x5d6aebcd, 0x6a09e667, 0xbb67ae85, 0x3c6ef372, 0xfa2a4622, 0x510e527f, 0x9b05688c, 0x1f83d9ab]
        && t.T == 1 && t.PH == .round) = true := by
  decide
theorem test_round_zero :
    nextHas (step (at_ .round 64 0 0)) (fun t => t.R == #v[0x428a2f98, 0, 0, 0, 0x428a2f98, 0, 0, 0]) = true := by
  decide
theorem test_fold :
    nextHas (step { at_ .fold 64 64 24 with
        H := IV, RS := .done
        R := #v[0x506e3058, 0xd39a2165, 0x04d24d6c, 0xb85e2ce9, 0x5ef50f24, 0xfb121210, 0x948d25b6, 0x961f4894] })
      (fun t => t.H == abcH && t.N == 0 && t.T == 0 && t.PH == .done) = true := by
  decide

/-! ### Reset and the assembler -/

theorem test_reset_wins :
    nextHas (step (rstNext (present 0x100 (at_ .round 64 5 24))))
      (fun t => t.PH == .idle && t.T == 0 && t.N == 0 && t.LEN == 0 && t.RSP == [] && t.cmds == [0x100]) = true := by
  decide
theorem test_assemble :
    assemble [.init, .data 0x61, .final, .rdh 7, .rdx 63, .rds] = some [0x100, 0x261, 0x300, 0x407, 0x53f, 0x600] ∧
    assemble [.rdx 64] = none ∧ (Pseudo.msg ['a', 'b']).expand = some [.data 0x61, .data 0x62] := by decide

/-! ### Witnesses: the hypotheses of each statement are met -/

theorem witness_DataAppendsByteOrRaises_append :
    ∃ (s : State) (_ : Byte), s.PH = .absorb ∧ s.LEN ≠ BitVec.ofNat 64 (2 ^ 64 - 8) ∧ s.N = 63#7 ∧ s.N.toNat ≤ 63 :=
  ⟨at_ .absorb 63 0 504, 0xaa, by decide⟩
theorem witness_DataAppendsByteOrRaises_tooLarge :
    ∃ (s : State) (_ : Byte), s.PH = .absorb ∧ s.LEN = BitVec.ofNat 64 (2 ^ 64 - 8) :=
  ⟨at_ .absorb 63 0 0xfffffffffffffff8, 0xbb, by decide⟩
theorem witness_DataAppendsByteOrRaises_illegal : ∃ (s : State) (_ : Byte), s.PH ≠ .absorb :=
  ⟨State.reset, 0, by decide⟩
theorem witness_FinalStartsPaddingOrRaises : (∃ s : State, s.PH = .absorb) ∧ ∃ s : State, s.PH ≠ .absorb :=
  ⟨⟨at_ .absorb 0 0 0, rfl⟩, ⟨doneAbc, by decide⟩⟩
theorem witness_RdhAnswersHashWordOrRaises :
    (∃ (s : State) (k : Byte), k.toNat < 8 ∧ s.PH = .done) ∧ (∃ (s : State) (k : Byte), s.PH = .done ∧ 7 < k.toNat) ∧
    ∃ (s : State) (k : Byte), s.PH ≠ .done ∧ k.toNat < 8 :=
  ⟨⟨doneAbc, 7, by decide⟩, ⟨doneAbc, 8, by decide⟩, ⟨State.reset, 0, by decide⟩⟩
theorem witness_RdxAnswersDigestCharacterOrRaises :
    (∃ (s : State) (j : Byte), j.toNat < 64 ∧ s.PH = .done) ∧ (∃ (s : State) (j : Byte), s.PH = .done ∧ 63 < j.toNat) ∧
    ∃ (s : State) (j : Byte), s.PH ≠ .done ∧ j.toNat < 64 :=
  ⟨⟨doneAbc, 63, by decide⟩, ⟨doneAbc, 64, by decide⟩, ⟨State.reset, 0, by decide⟩⟩
theorem witness_PadtAppendsTerminator : ∃ s : State, s.PH = .padt ∧ s.N.toNat = 63 ∧ s.N.toNat ≤ 63 :=
  ⟨at_ .padt 63 0 0, by decide⟩
theorem witness_PadzAppendsZeroByte : ∃ s : State, s.PH = .padz ∧ s.N.toNat = 55 ∧ s.N.toNat ≤ 63 :=
  ⟨at_ .padz 55 0 0, by decide⟩
theorem witness_PadlAppendsLengthByte :
    (∃ s : State, 56 ≤ s.N.toNat ∧ s.N.toNat ≤ 63 ∧ s.N = 56#7) ∧
    ∃ s : State, 56 ≤ s.N.toNat ∧ s.N.toNat ≤ 63 ∧ s.N = 63#7 :=
  ⟨⟨at_ .padl 56 0 0x18, by decide⟩, ⟨at_ .padl 63 0 0x18, by decide⟩⟩
theorem witness_SchldLoadsBigEndianWord :
    ∃ (s : State) (b0 b1 b2 b3 : Byte), s.T.toNat = 15 ∧ s.B.read (4 * s.T.toNat) = some b0 ∧
      s.B.read (4 * s.T.toNat + 1) = some b1 ∧ s.B.read (4 * s.T.toNat + 2) = some b2 ∧
      s.B.read (4 * s.T.toNat + 3) = some b3 :=
  ⟨{ at_ .schld 64 15 0 with B := bufferOf abcBlock }, 0, 0, 0, 0x18, by decide⟩
theorem witness_SchexExpandsScheduleWord :
    (∃ s : State, 16 ≤ s.T.toNat ∧ s.T.toNat ≤ 63 ∧ s.T = 16#7) ∧
    ∃ s : State, 16 ≤ s.T.toNat ∧ s.T.toNat ≤ 63 ∧ s.T = 63#7 :=
  ⟨⟨at_ .schex 64 16 0, by decide⟩, ⟨at_ .schex 64 63 0, by decide⟩⟩
theorem witness_RoundUpdatesWorkingRegisters :
    ∃ (s : State) (_ : s.T.toNat ≤ 63) (a b c d e f g h t1 t2 : Word), s.R = #v[a, b, c, d, e, f, g, h] ∧
      t1 = h + bsig1 e + ch e f g + K[s.T.toNat] + s.W[s.T.toNat] ∧ t2 = bsig0 a + maj a b c ∧ s.T = 63#7 :=
  ⟨{ at_ .round 64 63 0 with R := IV }, by decide, _, _, _, _, _, _, _, _, _, _, rfl, rfl, rfl, rfl⟩

theorem witness_OtherInstructionsLeaveBuffer :
    ∃ (i : Instr) (s t : State), exec i s = .next t ∧ (∀ b, i ≠ .data b) ∧ i ≠ .padt ∧ i ≠ .padz ∧ i ≠ .padl :=
  ⟨.fold, at_ .fold 64 64 0, _, rfl, nofun, nofun, nofun, nofun⟩
theorem witness_AppendingInstructionsFrame_stored :
    ∃ (i : Instr) (s t : State), exec i s = .next t ∧
      ((∃ b, i = .data b) ∨ i = .padt ∨ i = .padz ∨ i = .padl) ∧ t.N ≠ 64#7 ∧ t.PH ≠ .error ∧ ∀ b, i ≠ .data b :=
  ⟨.padl, at_ .padl 56 0 0, _, rfl, .inr (.inr (.inr rfl)), by decide, by decide, nofun⟩
theorem witness_AppendingInstructionsFrame_raised :
    ∃ (i : Instr) (s t : State), exec i s = .next t ∧
      ((∃ b, i = .data b) ∨ i = .padt ∨ i = .padz ∨ i = .padl) ∧ t.PH = .error :=
  ⟨.data 1, at_ .idle 0 0 0, _, rfl, .inl ⟨1, rfl⟩, rfl⟩
theorem witness_BlockInstructionsFrame :
    (∃ s t : State, exec .schld s = .next t) ∧ (∃ s t : State, exec .schex s = .next t) ∧
    (∃ s t : State, exec .load s = .next t) ∧ (∃ s t : State, exec .round s = .next t) ∧
    ∃ s t : State, exec .fold s = .next t :=
  ⟨⟨{ at_ .schld 64 15 0 with B := bufferOf abcBlock }, _, rfl⟩, ⟨at_ .schex 64 16 0, _, rfl⟩,
    ⟨at_ .load 64 64 0, _, rfl⟩, ⟨at_ .round 64 63 0, _, rfl⟩, ⟨at_ .fold 64 64 0, _, rfl⟩⟩
theorem witness_NonstoringCommandsFrame :
    (∃ s t : State, exec .init s = .next t) ∧ (∃ s t : State, exec .final s = .next t ∧ t.PH ≠ .error) ∧
    (∃ s t : State, exec (.rdh 7) s = .next t ∧ t.PH ≠ .error) ∧
    (∃ s t : State, exec (.rdx 63) s = .next t ∧ t.PH ≠ .error) ∧ ∃ s t : State, exec .rds s = .next t :=
  ⟨⟨State.reset, _, rfl⟩, ⟨at_ .absorb 0 0 0, _, rfl, by decide⟩, ⟨doneAbc, _, rfl, by decide⟩,
    ⟨doneAbc, _, rfl, by decide⟩, ⟨State.reset, _, rfl⟩⟩

theorem witness_ErrorEntryIsPrecise : (∃ s : State, s.PH ≠ .error) ∧ ∃ s : State, s.PH = .error :=
  ⟨⟨State.reset, by decide⟩, ⟨at_ .error 0 0 0, rfl⟩⟩
theorem witness_ErrorEntryIsPrecise_step :
    ∃ (s t : State) (r : Response), s.rst = false ∧ s.PH.isHost = true ∧ step s = .next t ∧ t.RSP = s.RSP ++ [r] ∧
      r.st ≠ .ok :=
  ⟨present 0x300 State.reset, _, ⟨.illegalCommand, 0#32⟩, rfl, rfl, rfl, rfl, by decide⟩
theorem witness_ErrorPhaseIsSticky :
    ∀ c ∈ [(0x600 : CmdWord), 0x100, 0x300], ∃ s : State, s.rst = false ∧ s.PH = .error ∧ s.cmdPort = some c :=
  fun c _ => ⟨present c (at_ .error 0 0 0), rfl, rfl, rfl⟩
theorem witness_OnlyInitOrResetLeavesError :
    (∃ s t : State, s.PH = .error ∧ step s = .next t ∧ t.PH ≠ .error ∧ s.rst = true) ∧
    ∃ s t : State, s.PH = .error ∧ step s = .next t ∧ t.PH ≠ .error ∧ s.rst = false :=
  ⟨⟨rstNext (at_ .error 0 0 0), _, rfl, rfl, by decide, rfl⟩,
    ⟨present 0x100 (at_ .error 0 0 0), _, rfl, rfl, by decide, rfl⟩⟩
theorem witness_ResetEdgeWins : ∃ s : State, s.rst = true ∧ s.PH = .round ∧ s.cmdPort = some 0x100 :=
  ⟨rstNext (present 0x100 (at_ .round 64 5 24)), by decide⟩

theorem witness_StepPerformsAcceptedCommand :
    ∃ (s : State) (c : CmdWord) (i : Instr), s.rst = false ∧ s.PH.isHost = true ∧ s.cmdPort = some c ∧
      decodeCommand c = .ok i :=
  ⟨present 0x53f doneAbc, 0x53f, .rdx 63, by decide⟩
theorem witness_StepPerformsMicroOperation : ∃ s : State, s.rst = false ∧ s.PH.isHost = false :=
  ⟨at_ .fold 64 64 0, by decide⟩
theorem witness_StepWaitsForCommand : ∃ s : State, s.rst = false ∧ s.PH.isHost = true ∧ s.cmdPort = none :=
  ⟨State.reset, by decide⟩
theorem witness_ReservedWordsRaise :
    ∀ c ∈ [(0x0ff : CmdWord), 0x700, 0xfff, 0x101, 0x3ff, 0x601, 0x408, 0x540],
      ∃ s : State, s.rst = false ∧ s.PH.isHost = true ∧ s.cmdPort = some c ∧
        (c.toNat / 256 = 0 ∨ 7 ≤ c.toNat / 256 ∨
          ((c.toNat / 256 = 1 ∨ c.toNat / 256 = 3 ∨ c.toNat / 256 = 6) ∧ c.toNat % 256 ≠ 0) ∨
          (c.toNat / 256 = 4 ∧ 7 < c.toNat % 256) ∨ (c.toNat / 256 = 5 ∧ 63 < c.toNat % 256)) := by
  intro c hc
  refine ⟨present c doneAbc, rfl, rfl, rfl, ?_⟩
  revert c
  decide
theorem witness_LegalityMatrix :
    ∃ (s t : State) (c : CmdWord), s.rst = false ∧ s.PH.isHost = true ∧ s.cmdPort = some c ∧ step s = .next t :=
  ⟨present 0x2bb (at_ .absorb 63 0 0xfffffffffffffff8), _, 0x2bb, rfl, rfl, rfl, rfl⟩
theorem witness_OneResponsePerAcceptedCommand :
    (∃ s t : State, step s = .next t ∧ s.rst = false ∧ s.PH.isHost = true ∧ s.cmdPort.isSome = true) ∧
    (∃ s t : State, step s = .next t ∧ s.rst = true) ∧ (∃ s t : State, step s = .next t ∧ s.PH.isHost = false) ∧
    ∃ s t : State, step s = .next t ∧ s.cmdPort = none :=
  ⟨⟨present 0x600 State.reset, _, rfl, rfl, rfl, rfl⟩, ⟨rstNext State.reset, _, rfl, rfl⟩,
    ⟨at_ .load 64 64 0, _, rfl, rfl⟩, ⟨State.reset, _, rfl, rfl⟩⟩
theorem witness_ResponsePortCarriesResponse :
    (∃ s t : State, step s = .next t ∧ s.rst = false ∧ s.cmdReady = true ∧ s.cmdValid = true) ∧
    ∃ s t : State, step s = .next t ∧ s.cmdReady = false :=
  ⟨⟨present 0x600 State.reset, _, rfl, rfl, rfl, rfl⟩, ⟨at_ .load 64 64 0, _, rfl, rfl⟩⟩
theorem witness_HeldCommandsChangeNothing :
    ∃ (s t : State) (_ : List CmdWord) (es : List PortEdge), s.PH.isHost = false ∧ s.rst = false ∧
      ({ s with edges := es } : State).rst = false ∧ step s = .next t :=
  ⟨at_ .load 64 64 0, _, [0x600], [⟨false, false⟩], rfl, rfl, rfl, rfl⟩

theorem witness_DecodeIffEncode :
    ∃ (x : InstrWord) (i : Instr), decode x = .ok i ∧ i.wf = true ∧ encode i = x :=
  ⟨.command 0x53f, .rdx 63, by decide⟩
theorem witness_HashPseudoCommandIsTransaction : ∃ text : List Char, text ≠ [] ∧ ∀ c ∈ text, c.toNat < 128 :=
  ⟨['a', 'b', 'c'], by simp⟩
theorem witness_AddRotateShift : ∃ n i : Nat, 1 ≤ n ∧ n ≤ 31 ∧ i < 32 ∧ n = 31 ∧ i = 31 := ⟨31, 31, by decide⟩
theorem witness_ChooseAndMajorityBits : ∃ i : Nat, i < 32 ∧ i = 31 := ⟨31, by decide⟩
theorem witness_SigmaBits : ∃ i : Nat, i < 32 ∧ i = 31 := ⟨31, by decide⟩
theorem witness_ConstantsAreFractionsOfRoots : primes64[63]? = some 311 ∧ primes64[7]? = some 19 := by
  decide +kernel
theorem witness_PaddingInvariants :
    ∃ M : List Byte, M.length ≤ 2 ^ 61 - 1 ∧ M.length % 64 = 56 ∧ (∃ a, M.length < a ∧ a < 128 - 8) :=
  ⟨List.replicate 56 0x61, by rw [List.length_replicate]; omega, by decide, 57, by decide⟩
theorem witness_ScheduleMeetsRecurrence :
    ∃ (blk : List Byte) (b0 b1 b2 b3 : Byte) (w15 w16 w2 w7 : Word), blk.length = 64 ∧ blk[4 * 15]? = some b0 ∧
      blk[4 * 15 + 1]? = some b1 ∧ blk[4 * 15 + 2]? = some b2 ∧ blk[4 * 15 + 3]? = some b3 ∧
      (schedule blk)[63 - 15]? = some w15 ∧ (schedule blk)[63 - 16]? = some w16 ∧
      (schedule blk)[63 - 2]? = some w2 ∧ (schedule blk)[63 - 7]? = some w7 :=
  ⟨abcBlock, 0, 0, 0, 0x18, 0xfb3e89cb, 0x065c43da, 0x668b2ff8, 0xef57b9cd, by decide +kernel⟩

/-- A state in a micro-operation's guard that the invariant admits. -/
def blockState : State := { at_ .round 64 63 504 with B := bufferOf abcBlock, RS := .padz }

theorem blockState_inv : blockState.Inv := by
  constructor <;> decide +kernel
theorem errorState_inv : (present 0x100 { at_ .error 0 0 512 with ERRC := .illegalCommand }).Inv := by
  constructor <;> decide +kernel
theorem absorbState_inv : (present 0x2aa (at_ .absorb 0 0 0)).Inv := by
  constructor <;> decide +kernel

theorem witness_StepKeepsInvariant : ∃ s t : State, s.Inv ∧ step s = .next t := ⟨blockState, _, blockState_inv, rfl⟩
theorem witness_InvariantStatesNeverStop : ∃ s : State, s.Inv ∧ s.PH = .round ∧ s.T = 63#7 :=
  ⟨blockState, blockState_inv, rfl, rfl⟩
theorem witness_StepsFollowPhaseGraph :
    (∃ s t : State, s.Inv ∧ step s = .next t ∧ s.rst = false) ∧
    ∃ s t : State, s.Inv ∧ step s = .next t ∧ s.rst = true :=
  ⟨⟨blockState, _, blockState_inv, rfl, rfl⟩,
    ⟨rstNext blockState, _, by constructor <;> decide +kernel, rfl, rfl⟩⟩
theorem witness_LengthCounterNeverWraps :
    (∃ s t : State, s.Inv ∧ step s = .next t ∧ t.LEN = s.LEN) ∧
    (∃ s t : State, s.Inv ∧ step s = .next t ∧ t.LEN = 0#64 ∧ s.LEN ≠ 0#64) ∧
    ∃ s t : State, s.Inv ∧ step s = .next t ∧ t.LEN.toNat = s.LEN.toNat + 8 :=
  ⟨⟨blockState, _, blockState_inv, rfl, rfl⟩, ⟨_, _, errorState_inv, rfl, rfl, by decide⟩,
    ⟨_, _, absorbState_inv, rfl, rfl⟩⟩
theorem witness_ResponsesHideInternalState :
    ∃ s s' t t' : State, s'.PH = s.PH ∧ s'.N = s.N ∧ s'.LEN = s.LEN ∧ s'.ERRC = s.ERRC ∧ s'.RSP = s.RSP ∧
      s'.cmds = s.cmds ∧ s'.edges = s.edges ∧ (s.PH = .done → s'.H = s.H) ∧ step s = .next t ∧ step s' = .next t' ∧
      s'.R ≠ s.R ∧ s'.W ≠ s.W ∧ s'.T ≠ s.T ∧ s'.B ≠ s.B ∧ s.PH = .done :=
  ⟨present 0x53f doneAbc, { present 0x53f doneAbc with R := IV, W := abcTail, T := 1, B := [(0, 0)] }, _, _,
    rfl, rfl, rfl, rfl, rfl, rfl, rfl, fun _ => rfl, rfl, rfl, by decide, by decide, by decide, by decide, rfl⟩
theorem witness_DigestIsFinalInDone :
    ∃ s t : State, s.PH = .done ∧ step s = .next t ∧ t.H ≠ s.H ∧ s.rst = false :=
  ⟨present 0x100 doneAbc, _, rfl, rfl, by decide, rfl⟩
theorem witness_InstancesCommute :
    ∃ (chip c1 c2 : List State) (i j : Nat), i ≠ j ∧ stepInstance i chip = .next c1 ∧ stepInstance j chip = .next c2 ∧
      c1 ≠ chip ∧ c2 ≠ chip :=
  ⟨[present 0x100 State.reset, at_ .load 64 64 0], _, _, 0, 1, by decide, rfl, rfl, by decide, by decide⟩

theorem witness_SchedulerComputesSchedule :
    ∃ (s : State) (blk : List Byte), s.noReset ∧ s.PH = .schld ∧ s.T = 0#7 ∧ blk.length = 64 ∧
      ∀ a, a < 64 → s.B.read a = blk[a]? :=
  ⟨{ at_ .schld 64 0 24 with B := bufferOf abcBlock }, abcBlock, nofun, rfl, rfl, by decide, by decide +kernel⟩
theorem witness_EngineCompressesBlock :
    ∃ (s : State) (blk : List Byte), s.noReset ∧ s.PH = .schld ∧ s.T = 0#7 ∧ blk.length = 64 ∧
      ∀ a, a < 64 → s.B.read a = blk[a]? :=
  ⟨{ at_ .schld 64 0 24 with B := bufferOf abcBlock, RS := .done }, abcBlock, nofun, rfl, rfl, by decide,
    by decide +kernel⟩
theorem witness_EngineReachesHostPhase : ∃ s : State, s.Inv ∧ s.noReset ∧ s.PH.isHost = false :=
  ⟨blockState, blockState_inv, nofun, rfl⟩
theorem witness_TransactionAnswersDigest :
    ∃ (s : State) (M : List Byte) (d : List Char), s.noReset ∧ s.PH.isHost = true ∧ digest M = some d ∧
      s.cmds = hashing M ++ readOut ∧ M ≠ [] :=
  ⟨{ State.reset with cmds := hashing [0x61, 0x62, 0x63] ++ readOut, edges := [⟨false, false⟩] }, [0x61, 0x62, 0x63],
    "ba7816bf8f01cfea414140de5dae2223b00361a396177a9cb410ff61f20015ad".toList, by unfold State.noReset; decide, rfl, by decide +kernel, rfl,
    by decide⟩
/-- A message of any length; the length stays a variable, so that nothing evaluates the list. -/
theorem longMessage (n : Nat) : ∃ M : List Byte, n ≤ M.length := ⟨List.replicate n 0, by rw [List.length_replicate]⟩
theorem readOut_words : ∀ c ∈ readOut, c ≠ 0x100 ∧ c ≠ 0x600 := by
  intro c hc
  simp only [readOut, List.mem_map, List.mem_range] at hc
  obtain ⟨j, hj, rfl⟩ := hc
  constructor <;> intro h <;> have := congrArg BitVec.toNat h <;> simp [BitVec.toNat_ofNat] at this <;> omega
theorem witness_OverlongMessageFails :
    ∃ (s : State) (M : List Byte) (rest : List CmdWord), s.noReset ∧ s.PH.isHost = true ∧ 2 ^ 61 ≤ M.length ∧
      (∀ c ∈ rest, c ≠ 0x100 ∧ c ≠ 0x600) ∧ rest = readOut ∧ s.cmds = hashing M ++ rest := by
  obtain ⟨M, hM⟩ := longMessage (2 ^ 61)
  exact ⟨{ State.reset with cmds := hashing M ++ readOut }, M, readOut, nofun, rfl, hM, readOut_words, rfl, rfl⟩

end Sys2Proof.Machine.Test
end

section
/-! Proofs of the encoding statements (30_encoding.md R73 to R79). A row's mask keeps the high bits of a word, so a row is
a range of words, and the decoder is a case split on quotients of the word's value. -/

namespace Sys2Proof.Machine

open Claim

/-! ### The rows as ranges of word values -/

/-- A mask that clears the low `k` bits compares quotients by `2^k`. -/
theorem and_highMask_eq_iff (k : Nat) (c row : CmdWord) (hrow : row.toNat % 2 ^ k = 0) :
    c &&& BitVec.allOnes 12 <<< k = row ↔ c.toNat / 2 ^ k = row.toNat / 2 ^ k := by
  have hval : (c >>> k <<< k).toNat = c.toNat / 2 ^ k * 2 ^ k := by
    have hlt : c.toNat / 2 ^ k * 2 ^ k < 2 ^ 12 := (Nat.div_mul_le_self _ _).trans_lt c.isLt
    simpa [Nat.shiftLeft_eq, Nat.shiftRight_eq_div_pow] using hlt
  rw [← BitVec.shiftLeft_ushiftRight, ← BitVec.toNat_inj, hval]
  constructor
  · intro h
    rw [← h, Nat.mul_div_cancel _ (Nat.two_pow_pos k)]
  · intro h
    rw [h, Nat.div_mul_cancel (Nat.dvd_of_mod_eq_zero hrow)]

theorem initRow_iff (c : CmdWord) : c &&& 0xFFF = 0x100 ↔ c.toNat = 0x100 := by
  simpa using and_highMask_eq_iff 0 c 0x100 rfl

theorem dataRow_iff (c : CmdWord) : c &&& 0xF00 = 0x200 ↔ c.toNat / 256 = 2 := by
  simpa using and_highMask_eq_iff 8 c 0x200 rfl

theorem finalRow_iff (c : CmdWord) : c &&& 0xFFF = 0x300 ↔ c.toNat = 0x300 := by
  simpa using and_highMask_eq_iff 0 c 0x300 rfl

theorem rdhRow_iff (c : CmdWord) : c &&& 0xFF8 = 0x400 ↔ c.toNat / 8 = 128 := by
  simpa using and_highMask_eq_iff 3 c 0x400 rfl

theorem rdxRow_iff (c : CmdWord) : c &&& 0xFC0 = 0x500 ↔ c.toNat / 64 = 20 := by
  simpa using and_highMask_eq_iff 6 c 0x500 rfl

theorem rdsRow_iff (c : CmdWord) : c &&& 0xFFF = 0x600 ↔ c.toNat = 0x600 := by
  simpa using and_highMask_eq_iff 0 c 0x600 rfl

/-- The decoder with its rows written as ranges (R73). -/
theorem decodeCommand_eq (c : CmdWord) :
    decodeCommand c =
      if c.toNat = 0x100 then .ok .init
      else if c.toNat / 256 = 2 then .ok (.data (argField c))
      else if c.toNat = 0x300 then .ok .final
      else if c.toNat / 8 = 128 then .ok (.rdh (kField c))
      else if c.toNat / 64 = 20 then .ok (.rdx (jField c))
      else if c.toNat = 0x600 then .ok .rds
      else if opReserved (opField c) then .error (.reservedOpcode (opField c))
      else .error (.reservedOperand (argField c)) := by
  simp only [decodeCommand, rowMatches, beq_iff_eq, initRow_iff, dataRow_iff, finalRow_iff, rdhRow_iff, rdxRow_iff,
    rdsRow_iff]

/-- The rows are disjoint, so each range decodes to its own command and to no other (R73). -/
theorem decodeCommand_rows (c : CmdWord) :
    (decodeCommand c = .ok .init ↔ c.toNat = 0x100) ∧
    ((∃ b, decodeCommand c = .ok (.data b)) ↔ c.toNat / 256 = 2) ∧
    (decodeCommand c = .ok .final ↔ c.toNat = 0x300) ∧
    ((∃ k, decodeCommand c = .ok (.rdh k)) ↔ c.toNat / 8 = 128) ∧
    ((∃ j, decodeCommand c = .ok (.rdx j)) ↔ c.toNat / 64 = 20) ∧
    (decodeCommand c = .ok .rds ↔ c.toNat = 0x600) := by
  rw [decodeCommand_eq]
  split_ifs <;> simp <;> omega

/-! ### The legal words -/

/-- The values of the legal command words, row by row (R73). -/
def legalWords : List Nat :=
  [0x100] ++ List.range' 0x200 256 ++ [0x300] ++ List.range' 0x400 8 ++ List.range' 0x500 64 ++ [0x600]

theorem mem_legalWords (n : Nat) :
    n ∈ legalWords ↔
      n = 0x100 ∨ n / 256 = 2 ∨ n = 0x300 ∨ n / 8 = 128 ∨ n / 64 = 20 ∨ n = 0x600 := by
  simp only [legalWords, List.mem_append, List.mem_singleton, List.mem_range'_1]
  omega

/-- The ranges of different rows do not overlap (R73). -/
theorem legalWords_nodup : legalWords.Nodup := by
  simp only [legalWords, List.nodup_append, List.nodup_singleton, List.mem_append, List.mem_singleton,
    List.mem_range'_1]
  grind

theorem legalWords_length : legalWords.length = 331 := by
  simp [legalWords]

/-- A word decodes exactly when its value is in the range of a row (R73). -/
theorem decodeCommand_isSome_iff (c : CmdWord) :
    (decodeCommand c).toOption.isSome = true ↔ c.toNat ∈ legalWords := by
  rw [decodeCommand_eq, mem_legalWords]
  split_ifs <;> simp [Except.toOption, *]

/-- The words of 12 bits that decode are the legal words, in some order. -/
theorem filter_decodable_perm_legalWords :
    ((List.range 4096).filter fun n => (decodeCommand (BitVec.ofNat 12 n)).toOption.isSome).Perm legalWords := by
  refine (List.perm_ext_iff_of_nodup (List.nodup_range.filter _) legalWords_nodup).2 fun n => ?_
  rw [List.mem_filter, List.mem_range, decodeCommand_isSome_iff, BitVec.toNat_ofNat]
  constructor
  · rintro ⟨hlt, hmem⟩
    rwa [Nat.mod_eq_of_lt hlt] at hmem
  · intro hmem
    have hlt : n < 2 ^ 12 := by
      rw [mem_legalWords] at hmem
      omega
    exact ⟨hlt, by rwa [Nat.mod_eq_of_lt hlt]⟩

/-- Settles O33: each row is a range of values, the ranges are disjoint, and together they hold 331 words. -/
theorem commandRowsSelect : Obligations.CommandRowsSelect := by
  refine ⟨fun c => ?_, ?_⟩
  · rw [initRow_iff, dataRow_iff, finalRow_iff, rdhRow_iff, rdxRow_iff, rdsRow_iff]
    exact decodeCommand_rows c
  · rw [filter_decodable_perm_legalWords.length_eq, legalWords_length]

/-! ### Words of no row -/

/-- The model's exception is the exception of R219. -/
theorem raise_eq_afterRaise (c : ErrCode) (s : State) : raise c s = afterRaise c s := by
  unfold raise afterRaise
  split
  · next h => simp [respond, ← h]
  · rfl

/-- A word outside every row raises `IllegalCommand` in every host phase (R75, R76). -/
theorem step_of_not_mem_legalWords (s : State) (c : CmdWord) (hr : s.rst = false) (hp : s.PH.isHost = true)
    (hc : s.cmdPort = some c) (hmem : c.toNat ∉ legalWords) :
    step s = .next (afterRaise .illegalCommand (accepted s)) := by
  cases hd : decodeCommand c with
  | ok i => exact absurd ((decodeCommand_isSome_iff c).1 (by simp [hd, Except.toOption])) hmem
  | error e =>
    rw [step_illegalWord s c e hr hp hc hd, raise_eq_afterRaise]
    rfl

/-- Settles O27: a word with a reserved opcode or with reserved operand bits set is in the range of no row. -/
theorem reservedWordsRaise : Obligations.ReservedWordsRaise := by
  intro s c hr hp hc hreserved
  have hmem : c.toNat ∉ legalWords := by
    rw [mem_legalWords]
    omega
  exact step_of_not_mem_legalWords s c hr hp hc hmem

/-! ### Phase codes -/

/-- A phase is a host phase exactly when its code selects no micro-operation (R79). -/
theorem isHost_iff_decodePhase (p : Phase) : p.isHost = true ↔ (decodePhase p.code).toOption = none := by
  rw [isHost_iff_microOp, decodePhase_code]
  cases p.microOp <;> simp [Except.toOption]

/-- The host phases of R79. -/
theorem isHost_iff (p : Phase) : p.isHost = true ↔ p = .idle ∨ p = .absorb ∨ p = .done ∨ p = .error := by
  cases p <;> decide

/-- Settles O34: the two tables by computation over the sixteen codes, the host phases by the lemmas above. -/
theorem phaseCodesSelect : Obligations.PhaseCodesSelect :=
  ⟨by decide, by decide, by decide, by decide, fun p => ⟨isHost_iff p, isHost_iff_decodePhase p⟩⟩

end Sys2Proof.Machine
end

section
/-! Proofs of the word operation statements (40_word_ops.md R100 to R109). Each operation of the datapath has one lemma
on its bits; the four sigmas follow from the bits of the rotation and of the shift. -/

namespace Sys2Proof.Machine

/-! ### Adder, rotator and shifter -/

theorem toNat_add32 (x y : Word) : (add32 x y).toNat = (x.toNat + y.toNat) % 2 ^ 32 :=
  BitVec.toNat_add x y

/-- The two shifts of R101 are the library's rotation. -/
theorem rotr_eq_rotateRight (x : Word) {n : Nat} (hn : n < 32) : rotr x n = x.rotateRight n := by
  rw [BitVec.rotateRight_def, Nat.mod_eq_of_lt hn]
  rfl

/-- Below bit `32 - n` the rotation reads `x` at `i + n`; from there on the index has wrapped once. -/
theorem getLsbD_rotr (x : Word) {n i : Nat} (hn : n < 32) (hi : i < 32) :
    (rotr x n).getLsbD i = x.getLsbD ((i + n) % 32) := by
  rw [rotr_eq_rotateRight x hn, BitVec.getLsbD_rotateRight, Nat.mod_eq_of_lt hn]
  by_cases hlow : i < 32 - n
  · have hidx : (i + n) % 32 = n + i := by omega
    simp [hlow, hidx]
  · have hidx : (i + n) % 32 = i - (32 - n) := by omega
    simp [hlow, hidx, hi]

theorem toNat_shr (x : Word) (n : Nat) : (shr x n).toNat = x.toNat / 2 ^ n := by
  rw [shr, BitVec.toNat_ushiftRight, Nat.shiftRight_eq_div_pow]

/-- A shift, unlike a rotation, leaves zeros where the index passes the top bit (R102). -/
theorem getLsbD_shr (x : Word) (n i : Nat) :
    (shr x n).getLsbD i = (decide (i + n < 32) && x.getLsbD (i + n)) := by
  rw [shr, BitVec.getLsbD_ushiftRight, Nat.add_comm n i]
  by_cases hin : i + n < 32
  · simp [hin]
  · simp [hin, BitVec.getLsbD_of_ge x (i + n) (by omega)]

/-- Settles O38: the adder, the rotator and the shifter, one lemma each. -/
theorem addRotateShift : Obligations.AddRotateShift := by
  intro x y
  exact ⟨toNat_add32 x y, fun n _ hn i hi => getLsbD_rotr x (by omega) hi, toNat_shr x⟩

/-! ### Choose and majority -/

/-- The operands of the exclusive or in `Ch` exclude each other, so bit `i` of `x` selects one of them. -/
theorem getLsbD_ch (x y z : Word) {i : Nat} (hi : i < 32) :
    (ch x y z).getLsbD i = if x.getLsbD i then y.getLsbD i else z.getLsbD i := by
  rw [ch, BitVec.getLsbD_xor, BitVec.getLsbD_and, BitVec.getLsbD_and, BitVec.getLsbD_not]
  cases x.getLsbD i <;> simp [hi]

theorem getLsbD_maj (x y z : Word) (i : Nat) :
    (maj x y z).getLsbD i =
      (((x.getLsbD i && y.getLsbD i) ^^ (x.getLsbD i && z.getLsbD i)) ^^ (y.getLsbD i && z.getLsbD i)) := by
  rw [maj, BitVec.getLsbD_xor, BitVec.getLsbD_xor, BitVec.getLsbD_and, BitVec.getLsbD_and, BitVec.getLsbD_and]

/-- The formula of R105 on single bits counts them: with two of three set one product is 1, with all set all three. -/
theorem majority_bits_iff : ∀ a b c : Bool,
    (((a && b) ^^ (a && c)) ^^ (b && c)) = true ↔ 2 ≤ a.toNat + b.toNat + c.toNat := by
  decide

/-- Settles O39: both functions act on each bit alone, where `Ch` selects and `Maj` counts. -/
theorem chooseAndMajorityBits : Obligations.ChooseAndMajorityBits := by
  intro x y z i hi
  refine ⟨getLsbD_ch x y z hi, ?_⟩
  rw [getLsbD_maj]
  exact majority_bits_iff _ _ _

/-! ### The sigmas -/

/-- The bits of a big sigma: three rotations (R106, R107). -/
theorem getLsbD_xor_rotr_rotr_rotr (x : Word) {a b c i : Nat} (ha : a < 32) (hb : b < 32) (hc : c < 32)
    (hi : i < 32) :
    (rotr x a ^^^ rotr x b ^^^ rotr x c).getLsbD i =
      ((x.getLsbD ((i + a) % 32) ^^ x.getLsbD ((i + b) % 32)) ^^ x.getLsbD ((i + c) % 32)) := by
  rw [BitVec.getLsbD_xor, BitVec.getLsbD_xor, getLsbD_rotr x ha hi, getLsbD_rotr x hb hi, getLsbD_rotr x hc hi]

/-- The bits of a small sigma: two rotations and a shift (R108, R109). -/
theorem getLsbD_xor_rotr_rotr_shr (x : Word) {a b i : Nat} (c : Nat) (ha : a < 32) (hb : b < 32) (hi : i < 32) :
    (rotr x a ^^^ rotr x b ^^^ shr x c).getLsbD i =
      ((x.getLsbD ((i + a) % 32) ^^ x.getLsbD ((i + b) % 32)) ^^ (decide (i + c < 32) && x.getLsbD (i + c))) := by
  rw [BitVec.getLsbD_xor, BitVec.getLsbD_xor, getLsbD_rotr x ha hi, getLsbD_rotr x hb hi, getLsbD_shr]

/-- Settles O40: the four sigmas are the two shapes above at the amounts of R106 to R109. -/
theorem sigmaBits : Obligations.SigmaBits := by
  intro x i hi
  refine ⟨?bsig0, ?bsig1, ?ssig0, ?ssig1⟩
  case bsig0 => exact getLsbD_xor_rotr_rotr_rotr x (by decide) (by decide) (by decide) hi
  case bsig1 => exact getLsbD_xor_rotr_rotr_rotr x (by decide) (by decide) (by decide) hi
  case ssig0 => exact getLsbD_xor_rotr_rotr_shr x 3 (by decide) (by decide) hi
  case ssig1 => exact getLsbD_xor_rotr_rotr_shr x 10 (by decide) (by decide) hi

end Sys2Proof.Machine
end

section
/-! Proofs of the padder statements (41_padder.md R124 to R127). The three micro-operations append one byte and then move
the sequencer; one lemma says the whole move by the fill counter from before the append. -/

namespace Sys2Proof.Machine

/-! ### The sequencer's move after an append -/

/-- The fill counter reaches 64 from 63 only: its 7 bits hold 64, so the increment does not wrap (R28, R29). -/
theorem succ_eq_64_iff (n : BitVec 7) : n + 1#7 = 64#7 ↔ n = 63#7 :=
  BitVec.eq_sub_iff_add_eq.symm

theorem succ_eq_56_iff (n : BitVec 7) : n + 1#7 = 56#7 ↔ n = 55#7 :=
  BitVec.eq_sub_iff_add_eq.symm

/-- `next_after_append` is the move after a byte whose phase, short of a whole block, is chosen at `N = 56` (R127). -/
theorem nextAfterAppend_eq_nextAfterByte (r : Phase) (s : State) :
    nextAfterAppend r s = nextAfterByte r (if s.N = 56#7 then .padl else .padz) s := by
  unfold nextAfterAppend nextAfterByte
  split_ifs <;> rfl

/-- The move after a byte as one state: only `PH`, `RS` and `T` change, the last two at `N = 64` only. -/
theorem nextAfterByte_eq (r p : Phase) (s : State) :
    nextAfterByte r p s =
      { s with
        PH := if s.N = 64#7 then .schld else p
        RS := if s.N = 64#7 then r else s.RS
        T := if s.N = 64#7 then 0#7 else s.T } := by
  unfold nextAfterByte
  split_ifs <;> rfl

/-- The same move from the state an append leaves, said by `N` before the append. -/
theorem nextAfterByte_of_appended (r p : Phase) (b : Memory) (s : State) :
    nextAfterByte r p { s with B := b, N := s.N + 1#7 } =
      { s with
        B := b, N := s.N + 1#7
        PH := if s.N = 63#7 then .schld else p
        RS := if s.N = 63#7 then r else s.RS
        T := if s.N = 63#7 then 0#7 else s.T } := by
  simp only [nextAfterByte_eq, succ_eq_64_iff]

/-- `next_after_append` from the state an append leaves, said by `N` before the append (R127). -/
theorem nextAfterAppend_of_appended (r : Phase) (b : Memory) (s : State) :
    nextAfterAppend r { s with B := b, N := s.N + 1#7 } =
      { s with
        B := b, N := s.N + 1#7
        PH := if s.N = 63#7 then .schld else if s.N = 55#7 then .padl else .padz
        RS := if s.N = 63#7 then r else s.RS
        T := if s.N = 63#7 then 0#7 else s.T } := by
  simp only [nextAfterAppend_eq_nextAfterByte, nextAfterByte_of_appended, succ_eq_56_iff]

/-! ### The three micro-operations -/

/-- Settles O7: the terminator is appended, then `next_after_append` moves the sequencer. -/
theorem padtAppendsTerminator : Obligations.PadtAppendsTerminator := by
  refine ⟨rfl, fun s hN => ?_⟩
  exact (execPadt_eq_next s _).2 ⟨by omega, (nextAfterAppend_of_appended _ _ s).symm⟩

/-- Settles O8: as for the terminator, with a zero byte. -/
theorem padzAppendsZeroByte : Obligations.PadzAppendsZeroByte := by
  refine ⟨rfl, fun s hN => ?_⟩
  exact (execPadz_eq_next s _).2 ⟨by omega, (nextAfterAppend_of_appended _ _ s).symm⟩

/-- A byte of the length suffix by division: the shift of R53, kept to its low 8 bits. -/
theorem lenByte_eq_ofNat_div (len : BitVec 64) (j : Nat) :
    lenByte len j = BitVec.ofNat 8 (len.toNat / 2 ^ (56 - 8 * j)) := by
  rw [lenByte, BitVec.extractLsb', Nat.shiftRight_eq_div_pow]

/-- Settles O9: the suffix byte is appended, and only a whole block leaves `PADL`. -/
theorem padlAppendsLengthByte : Obligations.PadlAppendsLengthByte := by
  refine ⟨rfl, fun s hlo hhi => (execPadl_eq_next s _).2 ⟨⟨hlo, hhi⟩, ?_⟩⟩
  rw [nextAfterByte_of_appended, lenByte_eq_ofNat_div]

end Sys2Proof.Machine
end

section
/-! Proofs of the scheduler statements (42_scheduler.md R140 to R142). The two micro-operations write one word and
advance the index; the schedule as a list grows at its end only, so each word is decided by the words before it. -/

namespace Sys2Proof.Machine

/-! ### The two micro-operations -/

/-- The move of the index, said by `T` before the increment: the last step of a phase is the one at `limit - 1`. -/
theorem advance_eq (limit : BitVec 7) (next same : Phase) (s : State) :
    advance limit next same s = { s with T := s.T + 1#7, PH := if s.T = limit - 1#7 then next else same } := by
  simp only [advance, BitVec.eq_sub_iff_add_eq]

/-- The big-endian word of four bytes by multiplication (R141). -/
theorem assembleWord_eq_ofNat (b0 b1 b2 b3 : Byte) :
    assembleWord b0 b1 b2 b3 =
      BitVec.ofNat 32 (b0.toNat * 2 ^ 24 + b1.toNat * 2 ^ 16 + b2.toNat * 2 ^ 8 + b3.toNat) := by
  rw [← assembleWord_toNat, BitVec.ofNat_toNat, BitVec.setWidth_eq]

/-- Settles O10: the four bytes have values, so the read gives their word, and the index advances. -/
theorem schldLoadsBigEndianWord : Obligations.SchldLoadsBigEndianWord := by
  refine ⟨rfl, fun s b0 b1 b2 b3 hT h0 h1 h2 h3 => (execSchld_eq_next s _).2 ⟨assembleWord b0 b1 b2 b3, ?_, ?_⟩⟩
  · exact (memRead4_eq_ok _ _ _).2 ⟨hT, b0, b1, b2, b3, h0, h1, h2, h3, rfl⟩
  · exact ⟨by omega, by rw [advance_eq, assembleWord_eq_ofNat]; rfl⟩

/-- Settles O11: from `T = 16` on the four taps exist, and the index advances. -/
theorem schexExpandsScheduleWord : Obligations.SchexExpandsScheduleWord := by
  refine ⟨rfl, fun s hlo hhi => (execSchex_eq_next s _).2 ⟨hlo, by omega, ?_⟩⟩
  rw [advance_eq]
  rfl

/-! ### The words of a block -/

/-- The model's last case of a byte sequence is the one with less than a whole word. -/
theorem length_lt_four_of_forall_ne (blk : List Byte)
    (hshort : ∀ b0 b1 b2 b3 rest, blk = b0 :: b1 :: b2 :: b3 :: rest → False) : blk.length < 4 := by
  match blk with
  | [] | [_] | [_, _] | [_, _, _] => simp
  | b0 :: b1 :: b2 :: b3 :: rest => exact (hshort b0 b1 b2 b3 rest rfl).elim

theorem length_wordsOf (blk : List Byte) : (wordsOf blk).length = blk.length / 4 := by
  induction blk using wordsOf.induct with
  | case1 b0 b1 b2 b3 rest ih =>
    simp only [wordsOf, List.length_cons, ih]
    omega
  | case2 blk hshort =>
    rw [wordsOf.eq_2 _ hshort, Nat.div_eq_of_lt (length_lt_four_of_forall_ne blk hshort), List.length_nil]

/-- Word `i` is the big-endian word of the bytes at `4i` (R140). -/
theorem getElem?_wordsOf (blk : List Byte) (i : Nat) {b0 b1 b2 b3 : Byte} (h0 : blk[4 * i]? = some b0)
    (h1 : blk[4 * i + 1]? = some b1) (h2 : blk[4 * i + 2]? = some b2) (h3 : blk[4 * i + 3]? = some b3) :
    (wordsOf blk)[i]? = some (assembleWord b0 b1 b2 b3) := by
  induction blk using wordsOf.induct generalizing i with
  | case1 c0 c1 c2 c3 rest ih =>
    cases i with
    | zero => simp_all [wordsOf, assembleWord]
    | succ i => exact ih i h0 h1 h2 h3
  | case2 blk hshort =>
    have hlen := length_lt_four_of_forall_ne blk hshort
    obtain ⟨hidx, _⟩ := List.getElem?_eq_some_iff.1 h3
    omega

/-! ### The words of the recurrence -/

@[simp] theorem length_extendSchedule (n : Nat) (ws : List Word) : (extendSchedule n ws).length = ws.length + n := by
  induction n generalizing ws with
  | zero => rfl
  | succ n ih => rw [extendSchedule, ih, List.length_append, List.length_singleton, Nat.add_assoc, Nat.add_comm 1]

/-- The recurrence appends words and changes none. -/
theorem isPrefix_extendSchedule (n : Nat) (ws : List Word) : ws <+: extendSchedule n ws := by
  induction n generalizing ws with
  | zero => exact List.prefix_rfl
  | succ n ih => exact (List.prefix_append _ _).trans (ih _)

theorem getElem?_extendSchedule_of_eq_some (n : Nat) {ws : List Word} {i : Nat} {w : Word} (h : ws[i]? = some w) :
    (extendSchedule n ws)[i]? = some w := by
  obtain ⟨hi, rfl⟩ := List.getElem?_eq_some_iff.1 h
  exact List.prefix_iff_getElem?.1 (isPrefix_extendSchedule n ws) i hi

/-- Each appended word is the recurrence's value on the words before it. -/
theorem getElem?_extendSchedule (n : Nat) (ws : List Word) {i : Nat} (hlo : ws.length ≤ i) (hhi : i < ws.length + n) :
    (extendSchedule n ws)[i]? = some (nextScheduleWord ((extendSchedule n ws).take i)) := by
  induction n generalizing ws with
  | zero => omega
  | succ n ih =>
    rcases hlo.eq_or_lt with rfl | hlt
    · have htake := List.prefix_iff_eq_take.1 (isPrefix_extendSchedule (n + 1) ws)
      rw [← htake]
      exact getElem?_extendSchedule_of_eq_some n List.getElem?_concat_length
    · have hlen : (ws ++ [nextScheduleWord ws]).length = ws.length + 1 := List.length_append
      exact ih _ (by omega) (by omega)

/-- The recurrence of R140 on the first `i` words, its taps read in the whole list. -/
theorem nextScheduleWord_take {ws : List Word} {i : Nat} {w15 w16 w2 w7 : Word} (hlo : 16 ≤ i) (hhi : i ≤ ws.length)
    (h15 : ws[i - 15]? = some w15) (h16 : ws[i - 16]? = some w16) (h2 : ws[i - 2]? = some w2)
    (h7 : ws[i - 7]? = some w7) :
    nextScheduleWord (ws.take i) = ssig0 w15 + w16 + ssig1 w2 + w7 := by
  have htap : ∀ {d w}, 0 < d → ws[i - d]? = some w → (ws.take i).getD (i - d) 0 = w := by
    intro d w hd hw
    rw [List.getD_eq_getElem?_getD, List.getElem?_take_of_lt (by omega), hw, Option.getD_some]
  rw [nextScheduleWord, List.length_take_of_le hhi, htap (by decide) h15, htap (by decide) h16, htap (by decide) h2,
    htap (by decide) h7]
  rfl

/-- Settles O43: the first 16 words are the block's, and the 48 others are appended by the recurrence. -/
theorem scheduleMeetsRecurrence : Obligations.ScheduleMeetsRecurrence := by
  intro blk hblk
  have hwords : (wordsOf blk).length = 16 := by rw [length_wordsOf, hblk]
  have hlen : (schedule blk).length = 64 := by rw [schedule, length_extendSchedule, hwords]
  refine ⟨hlen, ?_, ?_⟩
  · intro i b0 b1 b2 b3 _ h0 h1 h2 h3
    rw [← assembleWord_eq_ofNat]
    exact getElem?_extendSchedule_of_eq_some 48 (getElem?_wordsOf blk i h0 h1 h2 h3)
  · intro i w15 w16 w2 w7 hlo hhi h15 h16 h2 h7
    rw [← nextScheduleWord_take hlo (by omega) h15 h16 h2 h7]
    exact getElem?_extendSchedule 48 _ (by omega) (by omega)

end Sys2Proof.Machine
end

section
/-! Proofs of the compression statements (43_compression.md R157 to R159). `ROUND` reads one word of each array and
advances the index; the round and the fold are said here word by word. -/

namespace Sys2Proof.Machine

/-! ### The round and the fold, word by word -/

/-- The round of R155 on eight named words: the two temporaries, then one simultaneous shift of the registers. -/
theorem roundWith_eq (k w a b c d e f g h : Word) :
    roundWith k w #v[a, b, c, d, e, f, g, h] =
      #v[(h + bsig1 e + ch e f g + k + w) + (bsig0 a + maj a b c), a, b, c,
        d + (h + bsig1 e + ch e f g + k + w), e, f, g] :=
  rfl

/-- Each word of the fold is one addition modulo 2^32 (R111 (f)). -/
@[simp] theorem getElem_add8 (x y : Words8) (k : Nat) (hk : k < 8) : (add8 x y)[k] = x[k] + y[k] :=
  Vector.getElem_ofFn hk

/-- The eight sums of the fold, in the order `a, b, ..., h` (R159). -/
theorem add8_eq (x y : Words8) :
    add8 x y = #v[x[0] + y[0], x[1] + y[1], x[2] + y[2], x[3] + y[3],
      x[4] + y[4], x[5] + y[5], x[6] + y[6], x[7] + y[7]] := by
  ext k hk
  rw [getElem_add8]
  interval_cases k <;> rfl

/-! ### The three micro-operations -/

/-- Settles O12: `LOAD` reads no array, so it completes in every state. -/
theorem loadCopiesHashState : Obligations.LoadCopiesHashState :=
  ⟨rfl, fun _ => rfl⟩

/-- Settles O13: both arrays have an element `T`, the round is `roundWith_eq`, and the index advances. -/
theorem roundUpdatesWorkingRegisters : Obligations.RoundUpdatesWorkingRegisters := by
  refine ⟨rfl, fun s hT a b c d e f g h t1 t2 hR ht1 ht2 => (execRound_eq_next s _).2 ⟨by omega, ?_⟩⟩
  rw [advance_eq, hR, roundWith_eq, ← ht1, ← ht2]
  rfl

/-- Settles O14: `FOLD` completes in every state, with the eight sums of `add8_eq`. -/
theorem foldAddsIntoHashState : Obligations.FoldAddsIntoHashState := by
  refine ⟨rfl, fun s => ?_⟩
  rw [← add8_eq]
  rfl

end Sys2Proof.Machine
end

section
/-! Proofs of the command statements (45_commands.md R186 to R192, R197). The two summary statements go through one
account of what an accepted word leads to: refused by the legality table, refused as too large, or performed. -/

namespace Sys2Proof.Machine

open Claim

/-! ### Operand fields -/

/-- A bit field by division. -/
theorem toNat_extractLsb'_div {w : Nat} (x : BitVec w) (k n : Nat) :
    (x.extractLsb' k n).toNat = x.toNat / 2 ^ k % 2 ^ n := by
  rw [BitVec.extractLsb'_toNat, Nat.shiftRight_eq_div_pow]

theorem toNat_extractLsb'_zero {w : Nat} (x : BitVec w) (n : Nat) : (x.extractLsb' 0 n).toNat = x.toNat % 2 ^ n := by
  rw [toNat_extractLsb'_div, Nat.pow_zero, Nat.div_one]

theorem toNat_argField (c : CmdWord) : (argField c).toNat = c.toNat % 256 :=
  toNat_extractLsb'_zero c 8

/-- A field of at most 8 low bits, widened to a byte operand. -/
theorem toNat_setWidth_extractLsb' (c : CmdWord) {n : Nat} (hn : n ≤ 8) :
    ((c.extractLsb' 0 n).setWidth 8).toNat = c.toNat % 2 ^ n := by
  rw [BitVec.toNat_setWidth_of_le hn, toNat_extractLsb'_zero]

theorem toNat_kField (c : CmdWord) : (kField c).toNat = c.toNat % 8 :=
  toNat_setWidth_extractLsb' c (by decide)

theorem toNat_jField (c : CmdWord) : (jField c).toNat = c.toNat % 64 :=
  toNat_setWidth_extractLsb' c (by decide)

/-! ### The words of the commands with an operand -/

/-- An opcode and an operand do not overlap, so the word is `256 * op + arg` (R70). -/
theorem toNat_or_setWidth {op : Nat} {row : CmdWord} (hrow : row.toNat = 2 ^ 8 * op) (b : Byte) :
    (row ||| b.setWidth 12).toNat = 256 * op + b.toNat := by
  rw [BitVec.toNat_or, BitVec.toNat_setWidth_of_le (by decide), hrow, ← Nat.two_pow_add_eq_or_of_lt b.isLt]

theorem decodeCommand_data (b : Byte) : decodeCommand (0x200 ||| b.setWidth 12) = .ok (.data b) := by
  have hlt := b.isLt
  have hword := toNat_or_setWidth (op := 2) (row := 0x200) rfl b
  have harg : argField (0x200 ||| b.setWidth 12) = b := BitVec.eq_of_toNat_eq (by rw [toNat_argField]; omega)
  rw [decodeCommand_eq, if_neg (by omega), if_pos (by omega), harg]

theorem decodeCommand_rdh {k : Byte} (hk : k.toNat < 8) : decodeCommand (0x400 ||| k.setWidth 12) = .ok (.rdh k) := by
  have hword := toNat_or_setWidth (op := 4) (row := 0x400) rfl k
  have harg : kField (0x400 ||| k.setWidth 12) = k := BitVec.eq_of_toNat_eq (by rw [toNat_kField]; omega)
  rw [decodeCommand_eq, if_neg (by omega), if_neg (by omega), if_neg (by omega), if_pos (by omega), harg]

theorem decodeCommand_rdx {j : Byte} (hj : j.toNat < 64) : decodeCommand (0x500 ||| j.setWidth 12) = .ok (.rdx j) := by
  have hword := toNat_or_setWidth (op := 5) (row := 0x500) rfl j
  have harg : jField (0x500 ||| j.setWidth 12) = j := BitVec.eq_of_toNat_eq (by rw [toNat_jField]; omega)
  rw [decodeCommand_eq, if_neg (by omega), if_neg (by omega), if_neg (by omega), if_neg (by omega),
    if_pos (by omega), harg]

/-! ### `INIT`, `DATA`, `FINAL` -/

/-- Settles O1: `INIT` tests no phase, so it completes in every state. -/
theorem initStartsTransaction : Obligations.InitStartsTransaction :=
  ⟨rfl, fun _ => rfl⟩

/-- Settles O2: the three cases of `execData_eq_next`, with the sequencer's move of a message byte. -/
theorem dataAppendsByteOrRaises : Obligations.DataAppendsByteOrRaises := by
  refine fun s b => ⟨decodeCommand_data b, ?appends, ?tooLarge, ?illegal⟩
  case appends =>
    intro hPH hLEN hN
    have hmove := nextAfterByte_of_appended .absorb .absorb (s.B.write s.N.toNat b) { s with LEN := s.LEN + 8#64 }
    exact (execData_eq_next b s _).2 (.inr (.inr ⟨hPH, hLEN, by omega, congrArg (respond .ok 0#32) hmove.symm⟩))
  case tooLarge =>
    intro hPH hLEN
    exact (execData_eq_next b s _).2 (.inr (.inl ⟨hPH, hLEN, (raise_eq_afterRaise _ s).symm⟩))
  case illegal =>
    intro hPH
    exact (execData_eq_next b s _).2 (.inl ⟨hPH, (raise_eq_afterRaise _ s).symm⟩)

/-- Settles O3: the two cases of `execFinal_eq_next`. -/
theorem finalStartsPaddingOrRaises : Obligations.FinalStartsPaddingOrRaises := by
  refine ⟨rfl, fun s => ⟨fun hPH => ?_, fun hPH => ?_⟩⟩
  · exact (execFinal_eq_next s _).2 (.inr ⟨hPH, rfl⟩)
  · exact (execFinal_eq_next s _).2 (.inl ⟨hPH, (raise_eq_afterRaise _ s).symm⟩)

/-! ### `RDH`, `RDX`, `RDS` -/

/-- Settles O4: the two cases of `execRdh_eq_next`. -/
theorem rdhAnswersHashWordOrRaises : Obligations.RdhAnswersHashWordOrRaises := by
  refine fun s k => ⟨decodeCommand_rdh, fun hk hPH => ?_, fun hillegal => ?_⟩
  · exact (execRdh_eq_next k s _).2 (.inr ⟨hPH, hk, rfl⟩)
  · exact (execRdh_eq_next k s _).2 (.inl ⟨hillegal, (raise_eq_afterRaise _ s).symm⟩)

/-- A nibble by division (R54, R176). -/
theorem toNat_nibble (x : Word) (m : Nat) : (nibble x m).toNat = x.toNat / 2 ^ (28 - 4 * m) % 16 :=
  toNat_extractLsb'_div x (28 - 4 * m) 4

theorem toNat_add_setWidth (v : BitVec 4) {a : Byte} (ha : a.toNat ≤ 240) :
    (a + v.setWidth 8).toNat = a.toNat + v.toNat := by
  have hlt := v.isLt
  rw [BitVec.toNat_add, BitVec.toNat_setWidth_of_le (by decide), Nat.mod_eq_of_lt (by omega)]

/-- The ASCII code does not wrap in its 8 bits (R177). -/
theorem toNat_hexCode (v : BitVec 4) :
    (hexCode v).toNat = if v.toNat ≤ 9 then 0x30 + v.toNat else 0x57 + v.toNat := by
  unfold hexCode
  split
  · exact toNat_add_setWidth v (by decide)
  · exact toNat_add_setWidth v (by decide)

/-- Settles O5: the two cases of `execRdx_eq_next`, with the nibble and its code as numbers. -/
theorem rdxAnswersDigestCharacterOrRaises : Obligations.RdxAnswersDigestCharacterOrRaises := by
  refine fun s j => ⟨decodeCommand_rdx, fun hj hPH => ?_, fun hillegal => ?_⟩
  · refine ⟨(hexChar s.H ⟨j.toNat, hj⟩).setWidth 32, ?_, _, rfl, ?_⟩
    · exact (execRdx_eq_next j s _).2 (.inr ⟨hPH, hj, rfl⟩)
    · rw [BitVec.toNat_setWidth_of_le (by decide), hexChar, toNat_hexCode, nib, toNat_nibble]
  · exact (execRdx_eq_next j s _).2 (.inl ⟨hillegal, (raise_eq_afterRaise _ s).symm⟩)

/-- A field of `STATUS` is what the sum of R33 has at its position. -/
theorem extractLsb'_status_eq {s : State} {k n : Nat} {y : BitVec n}
    (h : (s.N.toNat * 256 + (digestValid s).toNat * 64 + s.ERRC.code.toNat * 16 + s.PH.code.toNat) / 2 ^ k % 2 ^ n
      = y.toNat) : (status s).extractLsb' k n = y :=
  BitVec.eq_of_toNat_eq (by rw [toNat_extractLsb'_div, status_toNat, h])

/-- Settles O6: `RDS` tests no phase, and each field of `STATUS` is bounded by the next one's position. -/
theorem rdsAnswersStatus : Obligations.RdsAnswersStatus := by
  refine ⟨rfl, fun s => ⟨status s, rfl, ?_⟩⟩
  have hN := s.N.isLt
  have hDV := (digestValid s).isLt
  have hERRC := s.ERRC.code.isLt
  have hPH := s.PH.code.isLt
  exact ⟨extractLsb'_status_eq (by omega), extractLsb'_status_eq (by omega),
    extractLsb'_status_eq (y := digestValid s) (by omega),
    extractLsb'_status_eq (y := 0#1) (by rw [BitVec.toNat_zero]; omega), extractLsb'_status_eq (by omega),
    extractLsb'_status_eq (y := 0#17) (by rw [BitVec.toNat_zero]; omega)⟩

/-! ### What an accepted word leads to -/

/-- `InputTooLarge` is the answer: `DATA` in `ABSORB` with the length counter at its maximum (R187). The word is given
by what it decodes to. -/
def TooLarge (x : Except DecodeError Instr) (s : State) : Prop :=
  s.PH = .absorb ∧ s.LEN = Config.maxLen ∧ ∃ b, x = .ok (.data b)

/-- What a word that decodes to `x` leads to when it is accepted in `s` (R192, R197). -/
inductive CommandOutcome (x : Except DecodeError Instr) (s t : State) : Prop
  | illegal (hillegal : ∀ i, x = .ok i → legalIn i s.PH = false) (ht : t = raise .illegalCommand s)
  | tooLarge (hlarge : TooLarge x s) (ht : t = raise .inputTooLarge s)
  | performed (i : Instr) (hx : x = .ok i) (hlegal : legalIn i s.PH = true) (hfits : ¬ TooLarge x s) (d : Word)
      (hRSP : t.RSP = s.RSP ++ [{ st := .ok, data := d }]) (hcmds : t.cmds = s.cmds)

/-- A legal instruction of the word keeps it from being illegal. -/
theorem not_illegal_of_legal {x : Except DecodeError Instr} {i : Instr} {p : Phase} (hx : x = .ok i)
    (hlegal : legalIn i p = true) : ¬ ∀ i, x = .ok i → legalIn i p = false := fun hillegal =>
  Bool.false_ne_true ((hillegal i hx).symm.trans hlegal)

/-- `InputTooLarge` is tested after the phase, so a word that is too large is legal (R187, R218). -/
theorem not_illegal_of_tooLarge {x : Except DecodeError Instr} {s : State} (h : TooLarge x s) :
    ¬ ∀ i, x = .ok i → legalIn i s.PH = false := by
  obtain ⟨hPH, -, b, hx⟩ := h
  exact not_illegal_of_legal hx (by rw [hPH]; rfl)

theorem not_tooLarge_of_ne_data {i : Instr} (hi : ∀ b, i ≠ .data b) (s : State) : ¬ TooLarge (.ok i) s :=
  fun ⟨_, _, b, hb⟩ => hi b (Except.ok.inj hb)

/-- A decoded command that raises for its phase or its index. -/
theorem commandOutcome_raise {i : Instr} {s : State} (h : legalIn i s.PH = false) :
    CommandOutcome (.ok i) s (raise .illegalCommand s) :=
  .illegal (fun _ hi => Except.ok.inj hi ▸ h) rfl

/-! ### The outcome of each command -/

/-- `INIT` and `RDS` are legal in every host phase (R197). -/
theorem legalIn_init_rds_of_isHost {p : Phase} (hp : p.isHost = true) :
    legalIn .init p = true ∧ legalIn .rds p = true := by
  rcases (isHost_iff p).1 hp with rfl | rfl | rfl | rfl <;> decide

theorem commandOutcome_init {s t : State} (hp : s.PH.isHost = true) (h : exec .init s = .next t) :
    CommandOutcome (.ok .init) s t := by
  cases h
  exact .performed _ rfl (legalIn_init_rds_of_isHost hp).1 (not_tooLarge_of_ne_data (by simp) s) _ rfl rfl

theorem commandOutcome_data {b : Byte} {s t : State} (h : exec (.data b) s = .next t) :
    CommandOutcome (.ok (.data b)) s t := by
  rcases (execData_eq_next b s t).1 h with ⟨hPH, rfl⟩ | ⟨hPH, hLEN, rfl⟩ | ⟨hPH, hLEN, -, rfl⟩
  · exact commandOutcome_raise (beq_false_of_ne hPH)
  · exact .tooLarge ⟨hPH, hLEN, b, rfl⟩ rfl
  · refine .performed _ rfl (by rw [hPH]; rfl) (fun ⟨_, hmax, _⟩ => hLEN hmax) 0#32 ?_ ?_
    · rw [respond_RSP, nextAfterByte_RSP]
    · rw [respond_cmds, nextAfterByte_cmds]

theorem commandOutcome_final {s t : State} (h : exec .final s = .next t) : CommandOutcome (.ok .final) s t := by
  rcases (execFinal_eq_next s t).1 h with ⟨hPH, rfl⟩ | ⟨hPH, rfl⟩
  · exact commandOutcome_raise (beq_false_of_ne hPH)
  · exact .performed _ rfl (by rw [hPH]; rfl) (not_tooLarge_of_ne_data (by simp) s) _ rfl rfl

theorem commandOutcome_rdh {k : Byte} {s t : State} (hk : k.toNat < 8) (h : exec (.rdh k) s = .next t) :
    CommandOutcome (.ok (.rdh k)) s t := by
  rcases (execRdh_eq_next k s t).1 h with ⟨hillegal, rfl⟩ | ⟨hPH, -, rfl⟩
  · exact commandOutcome_raise (beq_false_of_ne (hillegal.resolve_right (by omega)))
  · exact .performed _ rfl (by rw [hPH]; rfl) (not_tooLarge_of_ne_data (by simp) s) _ rfl rfl

theorem commandOutcome_rdx {j : Byte} {s t : State} (hj : j.toNat < 64) (h : exec (.rdx j) s = .next t) :
    CommandOutcome (.ok (.rdx j)) s t := by
  rcases (execRdx_eq_next j s t).1 h with ⟨hillegal, rfl⟩ | ⟨hPH, -, rfl⟩
  · exact commandOutcome_raise (beq_false_of_ne (hillegal.resolve_right (by omega)))
  · exact .performed _ rfl (by rw [hPH]; rfl) (not_tooLarge_of_ne_data (by simp) s) _ rfl rfl

theorem commandOutcome_rds {s t : State} (hp : s.PH.isHost = true) (h : exec .rds s = .next t) :
    CommandOutcome (.ok .rds) s t := by
  cases h
  exact .performed _ rfl (legalIn_init_rds_of_isHost hp).2 (not_tooLarge_of_ne_data (by simp) s) _ rfl rfl

/-- A decoded `RDH` or `RDX` has its index in range, because its reserved bits are 0 (R71). -/
theorem wf_of_decodeCommand {c : CmdWord} {i : Instr} (h : decodeCommand c = .ok i) : i.wf = true := by
  rw [decodeCommand_eq] at h
  split_ifs at h <;> cases h
  · rfl
  · rfl
  · rfl
  · exact decide_eq_true (by rw [toNat_kField]; omega)
  · exact decide_eq_true (by rw [toNat_jField]; omega)
  · rfl

/-- The outcome of an accepted word, legal or not, in the state with word and edge used up (R185). -/
theorem commandOutcome_of_step {s t : State} {c : CmdWord} (hr : s.rst = false) (hp : s.PH.isHost = true)
    (hc : s.cmdPort = some c) (hstep : step s = .next t) : CommandOutcome (decodeCommand c) s.takeCommand t := by
  cases hd : decodeCommand c with
  | error e =>
    cases (step_illegalWord s c e hr hp hc hd).symm.trans hstep
    exact .illegal nofun rfl
  | ok i =>
    have hexec := (step_command s c i hr hp hc hd).symm.trans hstep
    have hwf := wf_of_decodeCommand hd
    rcases decodeCommand_ok c i hd with rfl | ⟨b, rfl⟩ | rfl | ⟨k, rfl⟩ | ⟨j, rfl⟩ | rfl
    · exact commandOutcome_init hp hexec
    · exact commandOutcome_data hexec
    · exact commandOutcome_final hexec
    · exact commandOutcome_rdh (Nat.lt_succ_of_le (of_decide_eq_true hwf)) hexec
    · exact commandOutcome_rdx (Nat.lt_succ_of_le (of_decide_eq_true hwf)) hexec
    · exact commandOutcome_rds hp hexec

/-! ### The two summary statements -/

/-- Settles O28: each of the three outcomes has a status of its own. -/
theorem legalityMatrix : Obligations.LegalityMatrix := by
  intro s t c hr hp hc hstep
  cases commandOutcome_of_step hr hp hc hstep with
  | illegal hillegal ht =>
    exact ⟨⟨.illegalCommand, 0#32⟩, by rw [ht, raise_RSP]; rfl, iff_of_true rfl hillegal,
      iff_of_false nofun fun hlarge => not_illegal_of_tooLarge (s := s) hlarge hillegal,
      fun _ => ht.trans (raise_eq_afterRaise _ _)⟩
  | tooLarge hlarge ht =>
    exact ⟨⟨.inputTooLarge, 0#32⟩, by rw [ht, raise_RSP]; rfl,
      iff_of_false nofun (not_illegal_of_tooLarge hlarge), iff_of_true rfl hlarge, nofun⟩
  | performed i hx hlegal hfits d hRSP =>
    exact ⟨⟨.ok, d⟩, hRSP, iff_of_false nofun (not_illegal_of_legal hx hlegal), iff_of_false nofun hfits, nofun⟩

theorem CommandOutcome.response {x : Except DecodeError Instr} {s t : State} (h : CommandOutcome x s t) :
    ∃ r, t.RSP = s.RSP ++ [r] ∧ (r.st ≠ .ok → r.data = 0) ∧ t.cmds = s.cmds := by
  cases h with
  | illegal _ ht => exact ⟨_, by rw [ht, raise_RSP], fun _ => rfl, by rw [ht, raise_cmds]⟩
  | tooLarge _ ht => exact ⟨_, by rw [ht, raise_RSP], fun _ => rfl, by rw [ht, raise_cmds]⟩
  | performed _ _ _ _ _ hRSP hcmds => exact ⟨_, hRSP, fun hst => absurd rfl hst, hcmds⟩

/-- A micro-operation emits nothing and takes no word (R192, R194). -/
theorem exec_microOp_RSP_cmds {p : Phase} {i : Instr} {s t : State} (hi : p.microOp = some i)
    (h : exec i s = .next t) : t.RSP = s.RSP ∧ t.cmds = s.cmds := by
  cases p <;> cases hi
  case padt => obtain ⟨-, rfl⟩ := (execPadt_eq_next s t).1 h; simp
  case padz => obtain ⟨-, rfl⟩ := (execPadz_eq_next s t).1 h; simp
  case padl => obtain ⟨-, rfl⟩ := (execPadl_eq_next s t).1 h; simp
  case schld => obtain ⟨_, -, _, rfl⟩ := (execSchld_eq_next s t).1 h; simp
  case schex => obtain ⟨_, _, rfl⟩ := (execSchex_eq_next s t).1 h; simp
  case load => cases h; exact ⟨rfl, rfl⟩
  case round => obtain ⟨_, rfl⟩ := (execRound_eq_next s t).1 h; simp
  case fold => cases h; exact ⟨rfl, rfl⟩

/-- A reset edge, an engine step and an idle edge emit nothing and take no word (R192). -/
theorem step_RSP_cmds_of_not_accepting {s t : State} (hstep : step s = .next t)
    (h : s.rst = true ∨ s.PH.isHost = false ∨ s.cmdPort = none) : t.RSP = s.RSP ∧ t.cmds = s.cmds := by
  rcases step_cases s with ⟨-, hs⟩ | ⟨-, i, hi, hs⟩ | ⟨-, -, -, hs⟩ | ⟨hr, hp, c, i, hc, -⟩ | ⟨hr, hp, c, e, hc, -⟩
  · cases hs.symm.trans hstep
    simp
  · exact exec_microOp_RSP_cmds (s := s.nextEdge) hi (hs.symm.trans hstep)
  · cases hs.symm.trans hstep
    simp
  · simp [hr, hp, hc] at h
  · simp [hr, hp, hc] at h

/-- Settles O29: the outcome of an accepted word has one response, and no other step has any. -/
theorem oneResponsePerAcceptedCommand : Obligations.OneResponsePerAcceptedCommand := by
  refine fun s t hstep => ⟨fun ⟨hr, hp, hvalid⟩ => ?_, step_RSP_cmds_of_not_accepting hstep⟩
  obtain ⟨c, hc⟩ := Option.isSome_iff_exists.1 hvalid
  exact (commandOutcome_of_step hr hp hc hstep).response

end Sys2Proof.Machine
end

section
/-! Proofs of the exception statements (60_exceptions.md R219, R220). Of the outcomes of an accepted word only the two
that raise have a status other than 0, and in `ERROR` every word but `INIT` and `RDS` is refused. -/

namespace Sys2Proof.Machine

open Claim

/-! ### Taking an exception -/

/-- A response that reports an error tells the whole outcome: the exception and nothing of the command (R219). -/
theorem CommandOutcome.eq_raise_of_st_ne_ok {x : Except DecodeError Instr} {s t : State} {r : Response}
    (h : CommandOutcome x s t) (hr : t.RSP = s.RSP ++ [r]) (hst : r.st ≠ .ok) : t = raise r.st s := by
  have hresponse : ∀ r', t.RSP = s.RSP ++ [r'] → r' = r := fun _ hr' =>
    List.singleton_inj.1 (List.append_cancel_left (hr'.symm.trans hr))
  cases h with
  | illegal _ ht =>
    rw [← hresponse ⟨.illegalCommand, 0#32⟩ (by rw [ht, raise_RSP])]
    exact ht
  | tooLarge _ ht =>
    rw [← hresponse ⟨.inputTooLarge, 0#32⟩ (by rw [ht, raise_RSP])]
    exact ht
  | performed _ _ _ _ d hRSP _ => exact absurd (congrArg Response.st (hresponse ⟨.ok, d⟩ hRSP)).symm hst

/-- A step that emits a response has accepted a word: a reset edge, an engine step and an idle edge emit none. -/
theorem exists_cmdPort_of_step_RSP {s t : State} {r : Response} (hstep : step s = .next t)
    (hr : t.RSP = s.RSP ++ [r]) : ∃ c, s.cmdPort = some c := by
  refine Option.ne_none_iff_exists'.1 fun hc => ?_
  have hnone := (step_RSP_cmds_of_not_accepting hstep (.inr (.inr hc))).1
  simp [hnone] at hr

/-- Settles O19: the two cases of `raise`, and the outcome of the accepted word as its response tells it. -/
theorem errorEntryIsPrecise : Obligations.ErrorEntryIsPrecise := by
  refine ⟨fun c s => ⟨raise_of_ne_error c s, raise_of_error c s⟩, fun s t r hrst hp hstep hr hst => ?_⟩
  obtain ⟨c, hc⟩ := exists_cmdPort_of_step_RSP hstep hr
  have houtcome := commandOutcome_of_step hrst hp hc hstep
  exact (houtcome.eq_raise_of_st_ne_ok hr hst).trans (raise_eq_afterRaise _ _)

/-! ### The phase `ERROR` -/

/-- In `ERROR` a word other than those of `INIT` and `RDS` is refused: it has no row, or its row is legal in
`ABSORB` or `DONE` only (R220). -/
theorem step_of_error {s : State} {c : CmdWord} (hrst : s.rst = false) (hPH : s.PH = .error)
    (hc : s.cmdPort = some c) (hinit : c ≠ 0x100) (hrds : c ≠ 0x600) :
    step s = .next (raise .illegalCommand s.takeCommand) := by
  have hp : s.PH.isHost = true := by rw [hPH]; rfl
  have habsorb : s.takeCommand.PH ≠ .absorb := by simp [hPH]
  have hdone : s.takeCommand.PH ≠ .done := by simp [hPH]
  obtain ⟨hinitRow, -, -, -, -, hrdsRow⟩ := decodeCommand_rows c
  cases hd : decodeCommand c with
  | error e => exact step_illegalWord s c e hrst hp hc hd
  | ok i =>
    rw [step_command s c i hrst hp hc hd]
    rcases decodeCommand_ok c i hd with rfl | ⟨b, rfl⟩ | rfl | ⟨k, rfl⟩ | ⟨j, rfl⟩ | rfl
    · exact absurd (BitVec.eq_of_toNat_eq (hinitRow.1 hd)) hinit
    · exact (execData_eq_next b _ _).2 (.inl ⟨habsorb, rfl⟩)
    · exact (execFinal_eq_next _ _).2 (.inl ⟨habsorb, rfl⟩)
    · exact (execRdh_eq_next k _ _).2 (.inl ⟨.inl hdone, rfl⟩)
    · exact (execRdx_eq_next j _ _).2 (.inl ⟨.inl hdone, rfl⟩)
    · exact absurd (BitVec.eq_of_toNat_eq (hrdsRow.1 hd)) hrds

/-- Settles O20: `RDS` and `INIT` test no phase, and every other word is refused with the first cause kept. -/
theorem errorPhaseIsSticky : Obligations.ErrorPhaseIsSticky := by
  intro s c hrst hPH hc
  have hp : s.PH.isHost = true := by rw [hPH]; rfl
  refine ⟨hp, ?rds, ?init, ?other⟩
  case rds =>
    rintro rfl
    obtain ⟨hdecode, hexec⟩ := rdsAnswersStatus
    obtain ⟨w, hnext, hcode, hcause, hvalid, -⟩ := hexec (accepted s)
    have hPH' : (accepted s).PH = .error := hPH
    exact ⟨w, (step_command s _ _ hrst hp hc hdecode).trans hnext, by rw [hcode, hPH']; rfl, hcause,
      by rw [hvalid, hPH']; rfl⟩
  case init =>
    rintro rfl
    obtain ⟨hdecode, hexec⟩ := initStartsTransaction
    have hstep := step_command s _ _ hrst hp hc hdecode
    exact ⟨_, hstep, hstep.trans (hexec _), rfl, rfl⟩
  case other =>
    intro hinit hrds
    rw [step_of_error hrst hPH hc hinit hrds, raise_of_error _ s.takeCommand hPH]
    rfl

end Sys2Proof.Machine
end

section
/-! Proof of the reset statement (70_reset_and_hazards.md R240). A reset edge is the first case of a step, before the port
and the phase are looked at. -/

namespace Sys2Proof.Machine

open Claim

/-- Settles O23: `rst` is tested first, the control registers get their reset values, and such a step neither emits a
response nor takes a word. -/
theorem resetEdgeWins : Obligations.ResetEdgeWins := by
  intro s hrst
  have hstep : step s = .next (resetEdge s.nextEdge) := step_reset s hrst
  obtain ⟨hRSP, hcmds⟩ := step_RSP_cmds_of_not_accepting hstep (.inl hrst)
  have hedges : (resetEdge s.nextEdge).edges = s.edges.tail := by rw [resetEdge_edges, nextEdge_edges]
  exact ⟨_, hstep, resetEdge_PH _, resetEdge_T _, resetEdge_N _, resetEdge_LEN _, resetEdge_RS _, resetEdge_ERRC _,
    hRSP, hcmds, hedges⟩

end Sys2Proof.Machine
end

section
/-! Proofs of the round trip of the encodings and of the assembler (30_encoding.md R70 to R82). A command word is
`256 * op + arg`, so encoding undoes the decoder's split of the word into its two fields. -/

namespace Sys2Proof.Machine

open Claim

/-! ### Decode and encode -/

/-- A word is known from its two fields by value (R70). -/
theorem commandWord_eq {c : CmdWord} {op : BitVec 4} {arg : Byte} (n : Nat) (hop : op.toNat = n)
    (h : 256 * n + arg.toNat = c.toNat) : commandWord op arg = c := by
  have hword : (commandWord op arg).toNat = op.toNat * 256 + arg.toNat := append_toNat op arg
  exact BitVec.eq_of_toNat_eq (by omega)

/-- A decoded command word is the encoding of its command (R73). -/
theorem encode_of_decodeCommand {c : CmdWord} {i : Instr} (h : decodeCommand c = .ok i) : encode i = .command c := by
  rw [decodeCommand_eq] at h
  split_ifs at h with hinit hdata hfinal hrdh hrdx hrds <;> cases h <;> refine congrArg InstrWord.command ?_
  · exact commandWord_eq 1 rfl hinit.symm
  · exact commandWord_eq 2 rfl (by rw [toNat_argField]; omega)
  · exact commandWord_eq 3 rfl hfinal.symm
  · exact commandWord_eq 4 rfl (by rw [toNat_kField]; omega)
  · exact commandWord_eq 5 rfl (by rw [toNat_jField]; omega)
  · exact commandWord_eq 6 rfl hrds.symm

/-- A decoded phase code is the encoding of its micro-operation, which has no operand (R79). -/
theorem encode_of_decodePhase {p : PhaseCode} {i : Instr} (h : decodePhase p = .ok i) :
    i.wf = true ∧ encode i = .phase p := by
  unfold decodePhase at h
  split at h <;> cases h <;> exact ⟨rfl, congrArg InstrWord.phase (BitVec.eq_of_toNat_eq (Eq.symm ‹p.toNat = _›))⟩

theorem decode_encode {i : Instr} (hwf : i.wf = true) : decode (encode i) = .ok i := by
  cases i with
  | data b =>
    have hword : commandWord 0x2 b = 0x200 ||| b.setWidth 12 := commandWord_eq 2 rfl (toNat_or_setWidth rfl b).symm
    exact (congrArg decodeCommand hword).trans (decodeCommand_data b)
  | rdh k =>
    have hword : commandWord 0x4 k = 0x400 ||| k.setWidth 12 := commandWord_eq 4 rfl (toNat_or_setWidth rfl k).symm
    exact (congrArg decodeCommand hword).trans (decodeCommand_rdh (Nat.lt_succ_of_le (of_decide_eq_true hwf)))
  | rdx j =>
    have hword : commandWord 0x5 j = 0x500 ||| j.setWidth 12 := commandWord_eq 5 rfl (toNat_or_setWidth rfl j).symm
    exact (congrArg decodeCommand hword).trans (decodeCommand_rdx (Nat.lt_succ_of_le (of_decide_eq_true hwf)))
  | init | final | rds | padt | padz | padl | schld | schex | load | round | fold => rfl

/-- Settles O35: decoding a word of either kind finds the instruction it encodes, and encoding is undone by decoding. -/
theorem decodeIffEncode : Obligations.DecodeIffEncode := by
  refine fun x i => ⟨fun h => ?_, fun ⟨hwf, hx⟩ => hx ▸ decode_encode hwf⟩
  cases x with
  | command c => exact ⟨wf_of_decodeCommand h, encode_of_decodeCommand h⟩
  | phase p => exact encode_of_decodePhase h

/-- Settles O32: the words are closed, and the decoder computes on each. -/
theorem sampleWordsDecode : Obligations.SampleWordsDecode := by
  unfold Obligations.SampleWordsDecode
  decide

/-! ### Response words -/

theorem extractLsb'_word_data (r : Response) : r.word.extractLsb' 0 32 = r.data :=
  BitVec.extractLsb'_append_eq_right ..

theorem extractLsb'_word_st (r : Response) : r.word.extractLsb' 32 2 = r.st.code :=
  BitVec.extractLsb'_append_eq_left ..

/-- Settles O36: the word is the two fields side by side, and the three codes are 0, 1 and 2. -/
theorem responseWordFields : Obligations.ResponseWordFields := by
  intro r
  rw [extractLsb'_word_data, extractLsb'_word_st]
  refine ⟨rfl, ?_⟩
  cases r.st <;> decide

/-! ### The pseudo-command `HASH` -/

/-- A map of options that all have values. -/
theorem mapM_eq_some_map {α β : Type} {f : α → Option β} {g : α → β} {xs : List α} (h : ∀ x ∈ xs, f x = some (g x)) :
    xs.mapM f = some (xs.map g) := by
  induction xs with
  | nil => rfl
  | cons x xs ih =>
    obtain ⟨hx, hxs⟩ := List.forall_mem_cons.1 h
    rw [List.mapM_cons, hx, ih hxs]
    rfl

theorem msgLines_eq_some {text : List Char} (h : ∀ c ∈ text, c.toNat < 128) :
    msgLines text = some (text.map fun c => .data c.toNat) :=
  mapM_eq_some_map fun c hc => if_pos (h c hc)

/-- An operand within its limit assembles to the word of value `256 * op + v` (R81). -/
theorem asmWord_eq_some {op : BitVec 4} {limit v : Nat} {c : CmdWord} (hv : v ≤ limit) (hlimit : limit < 256)
    (h : 256 * op.toNat + v = c.toNat) : asmWord op limit v = some c := by
  rw [asmWord, if_pos hv, commandWord_eq _ rfl]
  rwa [BitVec.toNat_ofNat, Nat.mod_eq_of_lt (by omega)]

/-- A message byte assembles to its `DATA` word, written as in `hashing`. -/
theorem word_data {v : Nat} (hv : v < 256) :
    (AsmLine.data v).word = some (0x200 + (BitVec.ofNat 8 v).setWidth 12) := by
  refine asmWord_eq_some (by omega) (by decide) ?_
  rw [BitVec.toNat_add, BitVec.toNat_setWidth_of_le (by decide), BitVec.toNat_ofNat, Nat.mod_eq_of_lt hv]
  show 512 + v = (512 + v) % 4096
  omega

/-- A character index assembles to its `RDX` word, written as in `readOut`. -/
theorem word_rdx {j : Nat} (hj : j < 64) : (AsmLine.rdx j).word = some (BitVec.ofNat 12 (0x500 + j)) := by
  refine asmWord_eq_some (by omega) (by decide) ?_
  rw [BitVec.toNat_ofNat]
  show 1280 + j = (1280 + j) % 4096
  omega

/-- Settles O37: the text has its lines, and each line of the expansion assembles to its word. -/
theorem hashPseudoCommandIsTransaction : Obligations.HashPseudoCommandIsTransaction := by
  intro text htext
  have hdata : (text.map fun c => AsmLine.data c.toNat).mapM AsmLine.word =
      some (text.map fun c => 0x200 + (BitVec.ofNat 8 c.toNat).setWidth 12) := by
    rw [List.mapM_map]
    exact mapM_eq_some_map fun c hc => word_data ((htext c hc).trans (by decide))
  have hrdx : ((List.range 64).map AsmLine.rdx).mapM AsmLine.word = some readOut := by
    rw [List.mapM_map]
    exact mapM_eq_some_map fun j hj => word_rdx (List.mem_range.1 hj)
  have hinit : AsmLine.init.word = some 0x100 := rfl
  have hfinal : AsmLine.final.word = some 0x300 := rfl
  simp only [Pseudo.expand, msgLines_eq_some htext, Option.map_some, Option.bind_some, assemble]
  rw [List.mapM_append, List.mapM_cons, List.mapM_cons, hinit, hfinal, hdata, hrdx]
  simp [hashing]

end Sys2Proof.Machine
end

section
/-! Proofs of the statements on the step and of the frames (45_commands.md R185 to R192, 20_memory.md R57, R66,
60_exceptions.md R221). Each instruction's case lemma gives its next state, and a frame reads that state field by
field. -/

namespace Sys2Proof.Machine

open Claim

/-! ### The step -/

/-- Settles O22: the fields of the reset state as it is written, and `STATUS` computed from them. -/
theorem resetStateControlValues : Obligations.ResetStateControlValues :=
  ⟨rfl, rfl, rfl, rfl, rfl, rfl, by decide, rfl⟩

/-- Settles O24: the accepted word and the edge are what `takeCommand` uses up. -/
theorem stepPerformsAcceptedCommand : Obligations.StepPerformsAcceptedCommand :=
  fun s c i hr hp hc hd => step_command s c i hr hp hc hd

theorem exists_microOp_of_not_isHost {p : Phase} (hp : p.isHost = false) : ∃ i, p.microOp = some i := by
  refine Option.ne_none_iff_exists'.1 fun hnone => ?_
  rw [(isHost_iff_microOp p).2 hnone] at hp
  cases hp

/-- Settles O25: the code of an engine phase selects its micro-operation. -/
theorem stepPerformsMicroOperation : Obligations.StepPerformsMicroOperation := by
  intro s hr hp
  obtain ⟨i, hi⟩ := exists_microOp_of_not_isHost hp
  exact ⟨i, by rw [decodePhase_code, hi], step_microOp s i hr hi⟩

/-- Settles O26: a host phase with nothing presented is the idle case of the step. -/
theorem stepWaitsForCommand : Obligations.StepWaitsForCommand :=
  fun s hr hp hc => step_idle s hr hp hc

/-! ### The host's input in an engine phase -/

/-- A micro-operation neither reads nor changes the host's input (R185, R194). -/
theorem exec_microOp_withPort {p : Phase} {i : Instr} {s t : State} (hi : p.microOp = some i)
    (h : exec i s = .next t) (cs : List CmdWord) (es : List PortEdge) :
    exec i { s with cmds := cs, edges := es } = .next { t with cmds := cs, edges := es } := by
  cases p <;> cases hi
  case padt =>
    obtain ⟨hN, rfl⟩ := (execPadt_eq_next s t).1 h
    exact (execPadt_eq_next _ _).2 ⟨hN, by simp only [nextAfterAppend_eq_nextAfterByte, nextAfterByte_eq]⟩
  case padz =>
    obtain ⟨hN, rfl⟩ := (execPadz_eq_next s t).1 h
    exact (execPadz_eq_next _ _).2 ⟨hN, by simp only [nextAfterAppend_eq_nextAfterByte, nextAfterByte_eq]⟩
  case padl =>
    obtain ⟨hN, rfl⟩ := (execPadl_eq_next s t).1 h
    exact (execPadl_eq_next _ _).2 ⟨hN, by simp only [nextAfterByte_eq]⟩
  case schld =>
    obtain ⟨w, hw, hT, rfl⟩ := (execSchld_eq_next s t).1 h
    exact (execSchld_eq_next _ _).2 ⟨w, hw, hT, rfl⟩
  case schex =>
    obtain ⟨hlo, hhi, rfl⟩ := (execSchex_eq_next s t).1 h
    exact (execSchex_eq_next _ _).2 ⟨hlo, hhi, rfl⟩
  case load =>
    cases h
    rfl
  case round =>
    obtain ⟨hT, rfl⟩ := (execRound_eq_next s t).1 h
    exact (execRound_eq_next _ _).2 ⟨hT, rfl⟩
  case fold =>
    cases h
    rfl

/-- A micro-operation leaves the planned edges (R194). -/
theorem exec_microOp_edges {p : Phase} {i : Instr} {s t : State} (hi : p.microOp = some i) (h : exec i s = .next t) :
    t.edges = s.edges := by
  have hsame : t = { t with cmds := s.cmds, edges := s.edges } :=
    Host.Outcome.next.inj (h.symm.trans (exec_microOp_withPort hi h s.cmds s.edges))
  rw [hsame]

/-- Settles O31: the step is the micro-operation, which commutes with any change of the host's input. -/
theorem heldCommandsChangeNothing : Obligations.HeldCommandsChangeNothing := by
  intro s t cs es hp hr hr' hstep
  obtain ⟨i, hi⟩ := exists_microOp_of_not_isHost hp
  rw [step_microOp s i hr hi] at hstep
  exact (step_microOp { s with cmds := cs, edges := es } i hr' hi).trans (exec_microOp_withPort hi hstep cs es.tail)

/-! ### The response port -/

theorem rspPort_of_step {s t : State} {rs : List Response} (hstep : step s = .next t) (hRSP : t.RSP = s.RSP ++ rs) :
    s.rspPort = rs.head?.map Response.word := by
  rw [State.rspPort, hstep]
  show (t.RSP.drop s.RSP.length).head?.map Response.word = rs.head?.map Response.word
  rw [hRSP, List.drop_left]

/-- Settles O30: the history gains one response with an accepted word, and none otherwise. -/
theorem responsePortCarriesResponse : Obligations.ResponsePortCarriesResponse := by
  intro s t hstep
  obtain ⟨haccepting, hother⟩ := oneResponsePerAcceptedCommand s t hstep
  refine ⟨fun h => ?_, fun h => ?_⟩
  · obtain ⟨r, hRSP, -⟩ := haccepting h
    exact ⟨r, hRSP, rspPort_of_step hstep hRSP⟩
  · have hnone : s.cmdValid = false → s.cmdPort = none := fun hv =>
      Option.isNone_iff_eq_none.1 (Option.isSome_eq_false_iff.1 hv)
    obtain ⟨hRSP, -⟩ := hother (h.imp_right (Or.imp_right hnone))
    exact rspPort_of_step (rs := []) hstep (by rw [hRSP, List.append_nil])

/-! ### Frames -/

/-- Settles O15: such an instruction writes other fields than `B`, or raises. -/
theorem otherInstructionsLeaveBuffer : Obligations.OtherInstructionsLeaveBuffer := by
  intro i s t h hdata hpadt hpadz hpadl a
  suffices hB : t.B = s.B by rw [hB]
  cases i with
  | data b => exact absurd rfl (hdata b)
  | padt => exact absurd rfl hpadt
  | padz => exact absurd rfl hpadz
  | padl => exact absurd rfl hpadl
  | final => rcases (execFinal_eq_next s t).1 h with ⟨-, rfl⟩ | ⟨-, rfl⟩ <;> simp
  | rdh k => rcases (execRdh_eq_next k s t).1 h with ⟨-, rfl⟩ | ⟨-, -, rfl⟩ <;> simp
  | rdx j => rcases (execRdx_eq_next j s t).1 h with ⟨-, rfl⟩ | ⟨-, -, rfl⟩ <;> simp
  | schld => obtain ⟨_, -, _, rfl⟩ := (execSchld_eq_next s t).1 h; rfl
  | schex => obtain ⟨_, _, rfl⟩ := (execSchex_eq_next s t).1 h; rfl
  | round => obtain ⟨_, rfl⟩ := (execRound_eq_next s t).1 h; rfl
  | init | rds | load | fold => cases h; rfl

/-- What an append and the sequencer's move after it leave as it was (R57, R127). -/
structure AppendFrame (s t : State) : Prop where
  B : ∀ a, a ≠ s.N.toNat → t.B.read a = s.B.read a
  H : t.H = s.H
  R : t.R = s.R
  W : t.W = s.W
  cmds : t.cmds = s.cmds
  edges : t.edges = s.edges
  resets : t.resets = s.resets
  chipIndex : t.chipIndex = s.chipIndex
  partBlock : t.N ≠ 64#7 → t.RS = s.RS ∧ t.T = s.T
  ERRC : t.ERRC = s.ERRC

theorem appendFrame_nextAfterByte (r p : Phase) (v : Byte) (len : BitVec 64) (s : State) :
    AppendFrame s (nextAfterByte r p { s with B := s.B.write s.N.toNat v, N := s.N + 1#7, LEN := len }) := by
  constructor
  case B => exact fun a ha => by rw [nextAfterByte_B]; exact Memory.read_write_other _ _ _ _ ha
  case partBlock =>
    intro hN
    rw [nextAfterByte_N] at hN
    rw [nextAfterByte_RS, nextAfterByte_T, if_neg hN, if_neg hN]
    exact ⟨rfl, rfl⟩
  all_goals simp

theorem AppendFrame.respond {s t : State} (h : AppendFrame s t) (st : ErrCode) (d : Word) :
    AppendFrame s (respond st d t) :=
  ⟨h.B, h.H, h.R, h.W, h.cmds, h.edges, h.resets, h.chipIndex, h.partBlock, h.ERRC⟩

/-- The three micro-operations of the padder append a byte and do not raise (R124 to R127). -/
theorem exists_append_of_padder {i : Instr} {s t : State} (hi : i = .padt ∨ i = .padz ∨ i = .padl)
    (h : exec i s = .next t) :
    ∃ r p v, p ≠ .error ∧ t = nextAfterByte r p { s with B := s.B.write s.N.toNat v, N := s.N + 1#7 } := by
  have hpad : ∀ v, ∃ r p w, p ≠ .error ∧ nextAfterAppend .padz { s with B := s.B.write s.N.toNat v, N := s.N + 1#7 } =
      nextAfterByte r p { s with B := s.B.write s.N.toNat w, N := s.N + 1#7 } := fun v =>
    ⟨_, _, v, by split <;> nofun, nextAfterAppend_eq_nextAfterByte _ _⟩
  rcases hi with rfl | rfl | rfl
  · obtain ⟨-, rfl⟩ := (execPadt_eq_next s t).1 h
    exact hpad _
  · obtain ⟨-, rfl⟩ := (execPadz_eq_next s t).1 h
    exact hpad _
  · obtain ⟨-, rfl⟩ := (execPadl_eq_next s t).1 h
    exact ⟨.done, .padl, _, nofun, rfl⟩

/-- Settles O16: an append has the frame above, and `DATA` otherwise raises, which leaves everything but `PH`, `ERRC`
and the responses. -/
theorem appendingInstructionsFrame : Obligations.AppendingInstructionsFrame := by
  intro i s t h hi
  have hmove : ∀ {r p : Phase} {u : State}, p ≠ .error → (nextAfterByte r p u).PH ≠ .error := fun {r p u} hp => by
    rw [nextAfterByte_PH]
    split
    · nofun
    · exact hp
  rcases hi with ⟨b, rfl⟩ | hpad
  · rcases (execData_eq_next b s t).1 h with ⟨-, rfl⟩ | ⟨-, -, rfl⟩ | ⟨-, -, -, rfl⟩
    · simp
    · simp
    · have f := (appendFrame_nextAfterByte .absorb .absorb b (s.LEN + 8#64) s).respond .ok 0#32
      exact ⟨f.B, f.H, f.R, f.W, f.cmds, f.edges, f.resets, f.chipIndex, f.partBlock, fun hi => absurd rfl (hi b),
        fun _ => f.ERRC, fun hPH => absurd hPH (hmove nofun)⟩
  · obtain ⟨r, p, v, hp, rfl⟩ := exists_append_of_padder hpad h
    have f := appendFrame_nextAfterByte r p v s.LEN s
    exact ⟨f.B, f.H, f.R, f.W, f.cmds, f.edges, f.resets, f.chipIndex, f.partBlock,
      fun _ => ⟨nextAfterByte_LEN .., f.ERRC, nextAfterByte_RSP ..⟩, fun _ => f.ERRC,
      fun hPH => absurd hPH (hmove hp)⟩

/-- Settles O17: the scheduler writes one word of `W`, the rounds write `R`, and the fold writes `H` and clears `N`. -/
theorem blockInstructionsFrame : Obligations.BlockInstructionsFrame := by
  intro i s t h hi
  rcases hi with rfl | rfl | rfl | rfl | rfl
  · obtain ⟨_, -, hT, rfl⟩ := (execSchld_eq_next s t).1 h
    simp +contextual [Vector.getElem_set_ne, eq_comm]
  · obtain ⟨_, hT, rfl⟩ := (execSchex_eq_next s t).1 h
    simp +contextual [Vector.getElem_set_ne, eq_comm]
  · cases h
    simp
  · obtain ⟨_, rfl⟩ := (execRound_eq_next s t).1 h
    simp
  · cases h
    simp

/-- Settles O18: such a command writes the registers of its rule and one response, or raises. -/
theorem nonstoringCommandsFrame : Obligations.NonstoringCommandsFrame := by
  intro i s t h hi
  rcases hi with rfl | rfl | ⟨k, rfl⟩ | ⟨j, rfl⟩ | rfl
  · cases h
    simp
  · rcases (execFinal_eq_next s t).1 h with ⟨-, rfl⟩ | ⟨-, rfl⟩ <;> simp
  · rcases (execRdh_eq_next k s t).1 h with ⟨-, rfl⟩ | ⟨-, -, rfl⟩ <;> simp
  · rcases (execRdx_eq_next j s t).1 h with ⟨-, rfl⟩ | ⟨-, -, rfl⟩ <;> simp
  · cases h
    simp

/-! ### Leaving `ERROR`, and the digest in `DONE` -/

/-- Settles O21: `RDS` and every refused word stay in `ERROR`, so the accepted word is that of `INIT`. -/
theorem onlyInitOrResetLeavesError : Obligations.OnlyInitOrResetLeavesError := by
  intro s t hPH hstep hleft
  rcases step_cases s with ⟨hr, hs⟩ | ⟨-, i, hi, -⟩ | ⟨-, -, -, hs⟩ | ⟨hr, -, c, i, hc, -, -⟩ | ⟨-, -, c, e, -, -, hs⟩
  · cases hs.symm.trans hstep
    exact .inl ⟨hr, rfl⟩
  · rw [hPH] at hi
    cases hi
  · cases hs.symm.trans hstep
    exact absurd hPH hleft
  · obtain ⟨-, hrds, -, hother⟩ := errorPhaseIsSticky s c hr hPH hc
    by_cases hinit : c = 0x100
    · subst hinit
      cases (step_command s _ .init hr (by rw [hPH]; rfl) hc rfl).symm.trans hstep
      exact .inr ⟨hr, hc, rfl, rfl, rfl, rfl⟩
    · by_cases hrds' : c = 0x600
      · obtain ⟨w, hs, -⟩ := hrds hrds'
        cases hs.symm.trans hstep
        exact absurd hPH hleft
      · cases (hother hinit hrds').symm.trans hstep
        exact absurd hPH hleft
  · cases hs.symm.trans hstep
    exact absurd (raise_PH ..) hleft

/-- No command but `INIT` writes the hash state (R21). -/
theorem exec_command_H {s t : State} {c : CmdWord} {i : Instr} (hc : decodeCommand c = .ok i) (hi : i ≠ .init)
    (h : exec i s = .next t) : t.H = s.H := by
  rcases decodeCommand_ok c i hc with rfl | ⟨b, rfl⟩ | hother
  · exact absurd rfl hi
  · obtain ⟨-, hkeep, -⟩ := appendingInstructionsFrame _ s t h (.inl ⟨b, rfl⟩)
    exact hkeep
  · obtain ⟨-, -, -, -, -, -, -, hkeep, -⟩ := nonstoringCommandsFrame i s t h (.inr hother)
    exact (hkeep hi).1

/-- Settles O51: `DONE` runs no micro-operation, and of the commands only `INIT` writes `H`. -/
theorem digestIsFinalInDone : Obligations.DigestIsFinalInDone := by
  intro s t hPH hstep hH
  rcases step_cases s with ⟨hr, -⟩ | ⟨-, i, hi, -⟩ | ⟨-, -, -, hs⟩ | ⟨-, -, c, i, hc, hd, hs⟩ | ⟨-, -, c, e, -, -, hs⟩
  · exact .inl hr
  · rw [hPH] at hi
    cases hi
  · cases hs.symm.trans hstep
    exact absurd rfl hH
  · by_cases hi : i = .init
    · subst hi
      obtain ⟨hinitRow, -⟩ := decodeCommand_rows c
      exact .inr (hc.trans (congrArg some (BitVec.eq_of_toNat_eq (hinitRow.1 hd))))
    · exact absurd (exec_command_H hd hi (hs.symm.trans hstep)) hH
  · cases hs.symm.trans hstep
    exact absurd (raise_H ..) hH

/-! ### What a response depends on -/

/-- The response of a command by its rule (R186 to R191); a micro-operation has none. -/
def responseOf (i : Instr) (s : State) : Response :=
  match i with
  | .data _ =>
    if s.PH ≠ .absorb then ⟨.illegalCommand, 0#32⟩
    else if s.LEN = Config.maxLen then ⟨.inputTooLarge, 0#32⟩ else ⟨.ok, 0#32⟩
  | .final => if s.PH = .absorb then ⟨.ok, 0#32⟩ else ⟨.illegalCommand, 0#32⟩
  | .rdh k =>
    if h : s.PH = .done ∧ k.toNat < 8 then ⟨.ok, s.H[k.toNat]'h.2⟩ else ⟨.illegalCommand, 0#32⟩
  | .rdx j =>
    if h : s.PH = .done ∧ j.toNat < 64 then ⟨.ok, (hexChar s.H ⟨j.toNat, h.2⟩).setWidth 32⟩
    else ⟨.illegalCommand, 0#32⟩
  | .rds => ⟨.ok, status s⟩
  | _ => ⟨.ok, 0#32⟩

theorem exec_command_RSP {s t : State} {c : CmdWord} {i : Instr} (hc : decodeCommand c = .ok i)
    (h : exec i s = .next t) : t.RSP = s.RSP ++ [responseOf i s] := by
  rcases decodeCommand_ok c i hc with rfl | ⟨b, rfl⟩ | rfl | ⟨k, rfl⟩ | ⟨j, rfl⟩ | rfl
  · cases h
    rfl
  · rcases (execData_eq_next b s t).1 h with ⟨hp, rfl⟩ | ⟨hp, hl, rfl⟩ | ⟨hp, hl, -, rfl⟩ <;> simp [responseOf, *]
  · rcases (execFinal_eq_next s t).1 h with ⟨hp, rfl⟩ | ⟨hp, rfl⟩ <;> simp [responseOf, hp]
  · rcases (execRdh_eq_next k s t).1 h with ⟨hp, rfl⟩ | ⟨hp, hk, rfl⟩
    · rw [responseOf, dif_neg (by rwa [not_and_or, not_lt]), raise_RSP]
    · rw [responseOf, dif_pos ⟨hp, hk⟩, respond_RSP]
  · rcases (execRdx_eq_next j s t).1 h with ⟨hp, rfl⟩ | ⟨hp, hj, rfl⟩
    · rw [responseOf, dif_neg (by rwa [not_and_or, not_lt]), raise_RSP]
    · rw [responseOf, dif_pos ⟨hp, hj⟩, respond_RSP]
  · cases h
    rfl

/-- A response is decided by the phase, the length counter, what `STATUS` shows, and in `DONE` the hash state. -/
theorem responseOf_congr {s s' : State} (i : Instr) (hPH : s'.PH = s.PH) (hN : s'.N = s.N) (hLEN : s'.LEN = s.LEN)
    (hERRC : s'.ERRC = s.ERRC) (hH : s.PH = .done → s'.H = s.H) : responseOf i s' = responseOf i s := by
  cases i with
  | rdh k =>
    by_cases hdone : s.PH = .done
    · simp only [responseOf, hPH, hH hdone]
    · simp [responseOf, hPH, hdone]
  | rdx j =>
    by_cases hdone : s.PH = .done
    · simp only [responseOf, hPH, hH hdone]
    · simp [responseOf, hPH, hdone]
  | rds => simp only [responseOf, status, digestValid, hPH, hN, hERRC]
  | _ => simp only [responseOf, hPH, hLEN]

/-- Settles O50: the two steps are the same case, because they read the same port and phase, and an accepted word has
the same response. -/
theorem responsesHideInternalState : Obligations.ResponsesHideInternalState := by
  intro s s' t t' hPH hN hLEN hERRC hRSP hcmds hedges hH hstep hstep'
  have hedge : s'.edge = s.edge := by rw [State.edge, State.edge, hedges]
  have hrst : s'.rst = s.rst := congrArg PortEdge.rst hedge
  have hport : s'.cmdPort = s.cmdPort := by rw [State.cmdPort, State.cmdPort, hedge, hcmds]
  by_cases haccept : s.rst = true ∨ s.PH.isHost = false ∨ s.cmdPort = none
  · have hkeep := (step_RSP_cmds_of_not_accepting hstep haccept).1
    have hkeep' := (step_RSP_cmds_of_not_accepting hstep' (by rwa [hrst, hPH, hport])).1
    rw [hkeep, hkeep', hRSP]
  · obtain ⟨hr, hp, hc⟩ : s.rst = false ∧ s.PH.isHost = true ∧ s.cmdPort ≠ none := by simpa using haccept
    obtain ⟨c, hc⟩ := Option.ne_none_iff_exists'.1 hc
    have hr' := hrst.trans hr
    have hp' : s'.PH.isHost = true := by rw [hPH, hp]
    have hc' := hport.trans hc
    cases hd : decodeCommand c with
    | ok i =>
      have hexec := (step_command s c i hr hp hc hd).symm.trans hstep
      have hexec' := (step_command s' c i hr' hp' hc' hd).symm.trans hstep'
      rw [exec_command_RSP hd hexec, exec_command_RSP hd hexec', takeCommand_RSP, takeCommand_RSP, hRSP,
        responseOf_congr (s := s.takeCommand) (s' := s'.takeCommand) i hPH hN hLEN hERRC hH]
    | error e =>
      cases (step_illegalWord s c e hr hp hc hd).symm.trans hstep
      cases (step_illegalWord s' c e hr' hp' hc' hd).symm.trans hstep'
      simp [hRSP]

/-! ### Several engines on a chip -/

/-- A step of engine `k` replaces its state by one that is decided by that state alone (R66). -/
theorem stepInstance_eq_next {k : Nat} {chip c : List State} (h : stepInstance k chip = .next c) :
    ∃ t, c = chip.set k t ∧ ∀ c' : List State, c'[k]? = chip[k]? → stepInstance k c' = .next (c'.set k t) := by
  unfold stepInstance at h
  split at h
  case h_1 hnone =>
    have hset : ∀ c' : List State, c'[k]? = none → c' = c'.set k State.reset := fun c' hc' =>
      (List.set_eq_of_length_le (List.getElem?_eq_none_iff.1 hc')).symm
    cases h
    exact ⟨State.reset, hset _ hnone, fun c' hc' => by
      rw [stepInstance, hc', hnone, ← hset c' (hc'.trans hnone)]⟩
  case h_2 s hs =>
    split at h
    case h_1 t ht =>
      cases h
      exact ⟨t, rfl, fun c' hc' => by simp only [stepInstance, hc', hs, ht]⟩
    all_goals cases h

/-- Settles O52: each engine's step writes its own place in the list and reads no other. -/
theorem instancesCommute : Obligations.InstancesCommute := by
  intro chip c1 c2 i j hij h1 h2
  obtain ⟨t1, rfl, hstep1⟩ := stepInstance_eq_next h1
  obtain ⟨t2, rfl, hstep2⟩ := stepInstance_eq_next h2
  refine ⟨(chip.set i t1).set j t2, hstep2 _ (List.getElem?_set_ne hij), ?_⟩
  rw [List.set_comm _ _ hij]
  exact hstep1 _ (List.getElem?_set_ne hij.symm)

end Sys2Proof.Machine
end

section
/-! Proofs of the invariant statements (10_state.md R39, 45_commands.md R193, R194). The invariant is what all phases
share and what the phase adds; a step keeps the first by its writes, and the second by where its phase leads. -/

namespace Sys2Proof.Machine

open Claim

/-! ### The invariant by phase -/

/-- What the invariant says in every phase. -/
structure State.Common (s : State) : Prop where
  mem : s.B.wf = true
  written : ∀ a, a < s.N.toNat → (s.B.read a).isSome = true
  resume : s.RS = .absorb ∨ s.RS = .padz ∨ s.RS = .done
  len8 : s.LEN.toNat % 8 = 0
  cause : s.ERRC ≠ .ok ↔ s.PH = .error

/-- What holds while a whole block is compressed (R39). -/
def State.BlockFull (s : State) : Prop := s.N = 64#7 ∧ (s.RS = .absorb → s.lenFill = 0)

/-- What the invariant adds in phase `p` (R39). -/
def State.PhaseInv (s : State) : Phase → Prop
  | .idle => s.T = 0#7 ∧ s.N = 0#7 ∧ s.LEN = 0#64 ∧ s.RS = .absorb
  | .absorb => s.T = 0#7 ∧ s.N.toNat ≤ 63 ∧ s.N.toNat = s.lenFill
  | .padt => s.T = 0#7 ∧ s.N.toNat ≤ 63
  | .padz => s.T = 0#7 ∧ s.N.toNat ≤ 63 ∧ s.N.toNat ≠ 56
  | .padl => s.T = 0#7 ∧ 56 ≤ s.N.toNat ∧ s.N.toNat ≤ 63
  | .schld => s.BlockFull ∧ s.T.toNat ≤ 15
  | .schex => s.BlockFull ∧ 16 ≤ s.T.toNat ∧ s.T.toNat ≤ 63
  | .load => s.BlockFull ∧ s.T = 64#7
  | .round => s.BlockFull ∧ s.T.toNat ≤ 63
  | .fold => s.BlockFull ∧ s.T = 64#7
  | .done => s.T = 0#7 ∧ s.N = 0#7 ∧ s.RS = .done
  | .error => s.T = 0#7 ∧ s.N.toNat ≤ 63

theorem State.PhaseInv.index0 {s : State} {p : Phase} (h : s.PhaseInv p) (hp : p.inBlock = false) : s.T = 0#7 := by
  cases p
  case schld | schex | load | round | fold => cases hp
  all_goals exact h.1

theorem State.PhaseInv.blockFull {s : State} {p : Phase} (h : s.PhaseInv p) (hp : p.inBlock = true) :
    s.BlockFull := by
  cases p
  case schld | schex | load | round | fold => exact h.1
  all_goals cases hp

theorem inv_iff (s : State) : s.Inv ↔ s.Common ∧ s.PhaseInv s.PH := by
  constructor
  · intro h
    refine ⟨⟨h.mem, h.written, h.resume, h.len8, h.cause⟩, ?_⟩
    cases hPH : s.PH <;> have hin := congrArg Phase.inBlock hPH
    case idle => exact ⟨h.index0 hin, h.idle hPH⟩
    case absorb => exact ⟨h.index0 hin, h.absorb hPH⟩
    case padt => exact ⟨h.index0 hin, h.padt hPH⟩
    case padz => exact ⟨h.index0 hin, h.padz hPH⟩
    case padl => exact ⟨h.index0 hin, h.padl hPH⟩
    case schld => exact ⟨⟨h.block hin, h.wholeBlocks hin⟩, h.schld hPH⟩
    case schex => exact ⟨⟨h.block hin, h.wholeBlocks hin⟩, h.schex hPH⟩
    case load => exact ⟨⟨h.block hin, h.wholeBlocks hin⟩, h.load hPH⟩
    case round => exact ⟨⟨h.block hin, h.wholeBlocks hin⟩, h.round hPH⟩
    case fold => exact ⟨⟨h.block hin, h.wholeBlocks hin⟩, h.fold hPH⟩
    case done => exact ⟨h.index0 hin, h.done hPH⟩
    case error => exact ⟨h.index0 hin, h.error hPH⟩
  · rintro ⟨⟨hmem, hwritten, hresume, hlen8, hcause⟩, hphase⟩
    have hat : ∀ {p}, s.PH = p → s.PhaseInv p := fun hp => hp ▸ hphase
    exact {
      mem := hmem, written := hwritten, resume := hresume, len8 := hlen8, cause := hcause
      index0 := hphase.index0
      idle := fun hp => (hat hp).2
      absorb := fun hp => (hat hp).2
      padt := fun hp => (hat hp).2
      padz := fun hp => (hat hp).2
      padl := fun hp => (hat hp).2
      block := fun hin => (hphase.blockFull hin).1
      schld := fun hp => (hat hp).2
      schex := fun hp => (hat hp).2
      load := fun hp => (hat hp).2
      round := fun hp => (hat hp).2
      fold := fun hp => (hat hp).2
      done := fun hp => (hat hp).2
      error := fun hp => (hat hp).2
      wholeBlocks := fun hin => (hphase.blockFull hin).2 }

/-- The invariant reads no other fields than these. -/
theorem State.PhaseInv.congr {s t : State} {p : Phase} (h : s.PhaseInv p) (hT : t.T = s.T) (hN : t.N = s.N)
    (hLEN : t.LEN = s.LEN) (hRS : t.RS = s.RS) : t.PhaseInv p := by
  cases p <;> simpa only [State.PhaseInv, State.BlockFull, State.lenFill, hT, hN, hLEN, hRS] using h

/-- What a step that stores no byte and keeps `LEN`, `RS` and `ERRC` keeps. -/
theorem State.Common.of_frame {s t : State} (h : s.Common) (hB : t.B = s.B) (hN : t.N.toNat ≤ s.N.toNat)
    (hLEN : t.LEN = s.LEN) (hRS : t.RS = s.RS) (hERRC : t.ERRC = s.ERRC) (hPH : t.PH = .error ↔ s.PH = .error) :
    t.Common where
  mem := hB ▸ h.mem
  written := fun a ha => hB ▸ h.written a (by omega)
  resume := hRS ▸ h.resume
  len8 := hLEN ▸ h.len8
  cause := by rw [hERRC, hPH, h.cause]

/-- A step that changes none of the fields the invariant reads keeps it. -/
theorem State.Inv.congr {s t : State} (h : s.Inv) (hB : t.B = s.B) (hPH : t.PH = s.PH) (hT : t.T = s.T)
    (hN : t.N = s.N) (hLEN : t.LEN = s.LEN) (hRS : t.RS = s.RS) (hERRC : t.ERRC = s.ERRC) : t.Inv := by
  obtain ⟨hcommon, hphase⟩ := (inv_iff s).1 h
  exact (inv_iff t).2 ⟨hcommon.of_frame hB (by rw [hN]) hLEN hRS hERRC (by rw [hPH]),
    (hPH ▸ hphase).congr hT hN hLEN hRS⟩

theorem State.Inv.nextEdge {s : State} (h : s.Inv) : s.nextEdge.Inv := h.congr rfl rfl rfl rfl rfl rfl rfl

theorem State.Inv.takeCommand {s : State} (h : s.Inv) : s.takeCommand.Inv := h.congr rfl rfl rfl rfl rfl rfl rfl

theorem State.Inv.respond {s : State} (h : s.Inv) (st : ErrCode) (d : Word) : (respond st d s).Inv :=
  h.congr rfl rfl rfl rfl rfl rfl rfl

/-- The buffer is empty and the control registers hold their reset values (R38, R240). -/
theorem inv_resetEdge (s : State) : (resetEdge s).Inv :=
  (inv_iff _).2 ⟨⟨rfl, fun _ ha => absurd ha (Nat.not_lt_zero _), .inl rfl, rfl, by simp⟩, rfl, rfl, rfl, rfl⟩

/-- Settles O45: the reset state has the fields of a reset edge that the invariant reads. -/
theorem resetMeetsInvariant : Obligations.ResetMeetsInvariant :=
  (inv_resetEdge State.reset).congr rfl rfl rfl rfl rfl rfl rfl

/-! ### Appending a byte -/

theorem toNat_add_one {n : BitVec 7} (hn : n.toNat < 64) : (n + 1#7).toNat = n.toNat + 1 := by
  rw [BitVec.toNat_add, Nat.mod_eq_of_lt (by simp; omega)]
  rfl

/-- One more byte of `B` has a value (R24, R29). -/
theorem State.Common.append {s : State} (h : s.Common) (hN : s.N.toNat < 64) (v : Byte) :
    ({ s with B := s.B.write s.N.toNat v, N := s.N + 1#7 } : State).Common where
  mem := Memory.wf_write s.B s.N.toNat v h.mem hN
  written := fun a ha => by
    have ha : a < s.N.toNat + 1 := toNat_add_one hN ▸ ha
    rw [Memory.isSome_read_write, Bool.or_eq_true, decide_eq_true_eq]
    exact (Nat.lt_succ_iff_lt_or_eq.1 ha).symm.imp_right (h.written a)
  resume := h.resume
  len8 := h.len8
  cause := h.cause

/-- The move after an append keeps the invariant when the phases it may lead to are ready for it (R127). -/
theorem inv_nextAfterByte {r p : Phase} {s : State} (h : s.Common) (hPH : s.PH ≠ .error)
    (hr : r = .absorb ∨ r = .padz ∨ r = .done) (hp : p ≠ .error) (hfull : s.N = 64#7 → r = .absorb → s.lenFill = 0)
    (hphase : s.N ≠ 64#7 → s.PhaseInv p) : (nextAfterByte r p s).Inv := by
  have hERRC : ¬ s.ERRC ≠ .ok := fun hcause => hPH (h.cause.1 hcause)
  unfold nextAfterByte
  split
  case isTrue hN =>
    exact (inv_iff _).2 ⟨⟨h.mem, h.written, hr, h.len8, iff_of_false hERRC nofun⟩, ⟨hN, hfull hN⟩, Nat.zero_le _⟩
  case isFalse hN =>
    exact (inv_iff _).2 ⟨⟨h.mem, h.written, h.resume, h.len8, iff_of_false hERRC hp⟩,
      (hphase hN).congr rfl rfl rfl rfl⟩

theorem toNat_le_63_of_ne {n : BitVec 7} (hn : n.toNat < 64) (h : n + 1#7 ≠ 64#7) : (n + 1#7).toNat ≤ 63 := by
  have hsucc := toNat_add_one hn
  have hne : (n + 1#7).toNat ≠ 64 := fun heq => h (BitVec.eq_of_toNat_eq heq)
  omega

/-- A padding byte: `PADT` and `PADZ` lead to `PADL` exactly at `N = 56` (R127). -/
theorem inv_nextAfterAppend {s : State} (h : s.Common) (hPH : s.PH ≠ .error) (hT : s.T = 0#7) (hN : s.N.toNat < 64)
    (v : Byte) : (nextAfterAppend .padz { s with B := s.B.write s.N.toNat v, N := s.N + 1#7 }).Inv := by
  rw [nextAfterAppend_eq_nextAfterByte]
  refine inv_nextAfterByte (h.append hN v) hPH (.inr (.inl rfl)) (by split <;> nofun) nofun fun hne => ?_
  have hle := toNat_le_63_of_ne hN hne
  split
  case isTrue h56 => exact ⟨hT, Nat.le_of_eq (congrArg BitVec.toNat h56).symm, hle⟩
  case isFalse h56 => exact ⟨hT, hle, fun heq => h56 (BitVec.eq_of_toNat_eq heq)⟩

theorem inv_padl {s : State} (h : s.Inv) (hPH : s.PH = .padl) (v : Byte) :
    (nextAfterByte .done .padl { s with B := s.B.write s.N.toNat v, N := s.N + 1#7 }).Inv := by
  obtain ⟨hcommon, hphase⟩ := (inv_iff s).1 h
  rw [hPH] at hphase
  obtain ⟨hT, hlo, hhi⟩ := hphase
  have hN : s.N.toNat < 64 := by omega
  refine inv_nextAfterByte (hcommon.append hN v) (by simp [hPH]) (.inr (.inr rfl)) nofun nofun fun hne => ?_
  exact ⟨hT, by rw [toNat_add_one hN]; omega, toNat_le_63_of_ne hN hne⟩

/-- Eight more bits do not wrap the length counter below its maximum (R30, R110). -/
theorem toNat_LEN_add {len : BitVec 64} (h8 : len.toNat % 8 = 0) (hmax : len ≠ Config.maxLen) :
    (len + 8#64).toNat = len.toNat + 8 := by
  have hne : len.toNat ≠ 2 ^ 64 - 8 := fun heq => hmax (BitVec.eq_of_toNat_eq heq)
  have hlt := len.isLt
  rw [BitVec.toNat_add, Nat.mod_eq_of_lt (by simp; omega)]
  rfl

/-- A message byte moves `N` and `LEN` together (R29, R30). -/
theorem inv_data {s : State} (h : s.Inv) (hPH : s.PH = .absorb) (hmax : s.LEN ≠ Config.maxLen) (v : Byte) :
    (nextAfterByte .absorb .absorb
      { s with B := s.B.write s.N.toNat v, N := s.N + 1#7, LEN := s.LEN + 8#64 }).Inv := by
  obtain ⟨hcommon, hphase⟩ := (inv_iff s).1 h
  rw [hPH] at hphase
  obtain ⟨hT, hhi, hfill⟩ := hphase
  have hN : s.N.toNat < 64 := by omega
  have hLEN := toNat_LEN_add hcommon.len8 hmax
  have h8 := hcommon.len8
  obtain ⟨hmem, hwritten, hresume, -, hcause⟩ := hcommon.append hN v
  unfold State.lenFill at hfill
  refine inv_nextAfterByte ⟨hmem, hwritten, hresume, ?len8, hcause⟩ (by simp [hPH]) (.inl rfl) nofun ?full ?part
  case len8 => rw [hLEN]; omega
  case full =>
    intro h64 _
    have h63 := congrArg BitVec.toNat ((succ_eq_64_iff s.N).1 h64)
    rw [BitVec.toNat_ofNat] at h63
    simp only [State.lenFill, hLEN]
    omega
  case part =>
    intro hne
    have hle := toNat_le_63_of_ne hN hne
    refine ⟨hT, hle, ?_⟩
    rw [toNat_add_one hN] at hle
    simp only [State.lenFill, hLEN, toNat_add_one hN]
    omega

/-! ### The engine -/

/-- One more step of a counted phase, and the phase after its last step (R28). -/
theorem inv_advance {limit : BitVec 7} {next same : Phase} {s : State} (h : s.Inv) (hPH : s.PH ≠ .error)
    (hT : s.T.toNat < 64) (hnext : next ≠ .error) (hsame : same ≠ .error)
    (hlast : s.T.toNat + 1 = limit.toNat → ({ s with T := limit } : State).PhaseInv next)
    (hmore : ∀ t : BitVec 7, t.toNat = s.T.toNat + 1 → t.toNat ≠ limit.toNat →
      ({ s with T := t } : State).PhaseInv same) :
    (advance limit next same s).Inv := by
  have hsucc := toNat_add_one hT
  refine (inv_iff _).2 ⟨((inv_iff s).1 h).1.of_frame rfl le_rfl rfl rfl rfl (iff_of_false ?_ hPH), ?_⟩
  · rw [advance_PH]
    split <;> assumption
  · rw [advance_PH]
    split
    case isTrue heq => exact (hlast (by rw [← heq, hsucc])).congr heq rfl rfl rfl
    case isFalse hne =>
      exact (hmore _ hsucc fun heq => hne (BitVec.eq_of_toNat_eq heq)).congr rfl rfl rfl rfl

/-- A count below its limit that has not reached it by one more step. -/
theorem le_pred_of_count {n k : Nat} {t : BitVec 7} (hk : k < n) (ht : t.toNat = k + 1) (hne : t.toNat ≠ n) :
    t.toNat ≤ n - 1 := by
  omega

/-- Every micro-operation keeps the invariant in its phase (R39). -/
theorem inv_exec_microOp {s t : State} {i : Instr} (h : s.Inv) (hi : s.PH.microOp = some i)
    (hexec : exec i s = .next t) : t.Inv := by
  obtain ⟨hcommon, hphase⟩ := (inv_iff s).1 h
  cases hPH : s.PH <;> rw [hPH] at hi hphase <;> cases hi
  case padt =>
    obtain ⟨hT, hN⟩ := hphase
    obtain ⟨hN, rfl⟩ := (execPadt_eq_next s t).1 hexec
    exact inv_nextAfterAppend hcommon (by simp [hPH]) hT hN _
  case padz =>
    obtain ⟨hT, -⟩ := hphase
    obtain ⟨hN, rfl⟩ := (execPadz_eq_next s t).1 hexec
    exact inv_nextAfterAppend hcommon (by simp [hPH]) hT hN _
  case padl =>
    obtain ⟨-, rfl⟩ := (execPadl_eq_next s t).1 hexec
    exact inv_padl h hPH _
  case schld =>
    obtain ⟨hfull, hT⟩ := hphase
    obtain ⟨w, -, hlt, rfl⟩ := (execSchld_eq_next s t).1 hexec
    refine inv_advance (s := { s with W := s.W.set s.T.toNat w }) (h.congr rfl rfl rfl rfl rfl rfl rfl) (by simp [hPH])
      hlt nofun nofun (fun _ => ⟨hfull, show 16 ≤ (16#7).toNat ∧ (16#7).toNat ≤ 63 by decide⟩)
      fun n hn hne => ⟨hfull, ?_⟩
    exact le_pred_of_count (n := 16) (Nat.lt_succ_of_le hT) hn hne
  case schex =>
    obtain ⟨hfull, hlo, hhi⟩ := hphase
    obtain ⟨-, hlt, rfl⟩ := (execSchex_eq_next s t).1 hexec
    refine inv_advance (s := { s with W := s.W.set s.T.toNat _ }) (h.congr rfl rfl rfl rfl rfl rfl rfl) (by simp [hPH])
      hlt nofun nofun (fun _ => ⟨hfull, rfl⟩) fun n hn hne => ⟨hfull, ?_⟩
    exact ⟨hlo.trans (hn ▸ Nat.le_succ _), le_pred_of_count (n := 64) hlt hn hne⟩
  case load =>
    obtain ⟨hfull, -⟩ := hphase
    cases hexec
    exact (inv_iff _).2 ⟨hcommon.of_frame rfl le_rfl rfl rfl rfl (by simp [hPH]), hfull, Nat.zero_le _⟩
  case round =>
    obtain ⟨hfull, hT⟩ := hphase
    obtain ⟨hlt, rfl⟩ := (execRound_eq_next s t).1 hexec
    refine inv_advance (s := { s with R := roundWith K[s.T.toNat] s.W[s.T.toNat] s.R })
      (h.congr rfl rfl rfl rfl rfl rfl rfl) (by simp [hPH])
      hlt nofun nofun (fun _ => ⟨hfull, rfl⟩) fun n hn hne => ⟨hfull, ?_⟩
    exact le_pred_of_count (n := 64) hlt hn hne
  case fold =>
    obtain ⟨⟨-, hwhole⟩, -⟩ := hphase
    cases hexec
    have hresume := hcommon.resume
    refine (inv_iff _).2 ⟨hcommon.of_frame rfl (Nat.zero_le _) rfl rfl rfl (iff_of_false ?_ (by simp [hPH])), ?_⟩
    · rcases hresume with hRS | hRS | hRS <;> simp [hRS]
    · rcases hresume with hRS | hRS | hRS <;> simp only [hRS]
      · exact ⟨rfl, Nat.zero_le _, (hwhole hRS).symm⟩
      · exact ⟨rfl, Nat.zero_le _, Nat.zero_ne_add_one 55⟩
      · exact ⟨rfl, rfl, rfl⟩

/-- No micro-operation faults in its phase: its guard holds there (R194). -/
theorem exists_exec_microOp {s : State} {i : Instr} (h : s.Inv) (hi : s.PH.microOp = some i) :
    ∃ t, exec i s = .next t := by
  obtain ⟨hcommon, hphase⟩ := (inv_iff s).1 h
  cases hPH : s.PH <;> rw [hPH] at hi hphase <;> cases hi
  case padt => exact ⟨_, (execPadt_eq_next s _).2 ⟨Nat.lt_succ_of_le hphase.2, rfl⟩⟩
  case padz => exact ⟨_, (execPadz_eq_next s _).2 ⟨Nat.lt_succ_of_le hphase.2.1, rfl⟩⟩
  case padl => exact ⟨_, (execPadl_eq_next s _).2 ⟨hphase.2, rfl⟩⟩
  case schld =>
    obtain ⟨⟨hN, -⟩, hT⟩ := hphase
    have hbyte : ∀ a < 64, ∃ v, s.B.read a = some v := fun a ha =>
      Option.isSome_iff_exists.1 (hcommon.written a (by rw [hN]; exact ha))
    obtain ⟨b0, h0⟩ := hbyte (4 * s.T.toNat) (by omega)
    obtain ⟨b1, h1⟩ := hbyte (4 * s.T.toNat + 1) (by omega)
    obtain ⟨b2, h2⟩ := hbyte (4 * s.T.toNat + 2) (by omega)
    obtain ⟨b3, h3⟩ := hbyte (4 * s.T.toNat + 3) (by omega)
    have hread := (memRead4_eq_ok s.B s.T.toNat _).2 ⟨hT, b0, b1, b2, b3, h0, h1, h2, h3, rfl⟩
    exact ⟨_, (execSchld_eq_next s _).2 ⟨_, hread, by omega, rfl⟩⟩
  case schex => exact ⟨_, (execSchex_eq_next s _).2 ⟨hphase.2.1, Nat.lt_succ_of_le hphase.2.2, rfl⟩⟩
  case load => exact ⟨_, rfl⟩
  case round => exact ⟨_, (execRound_eq_next s _).2 ⟨Nat.lt_succ_of_le hphase.2, rfl⟩⟩
  case fold => exact ⟨_, rfl⟩

/-! ### The commands -/

/-- Between commands `T` is 0 and the buffer is not full (R28, R39). -/
theorem State.PhaseInv.of_isHost {s : State} {p : Phase} (h : s.PhaseInv p) (hp : p.isHost = true) :
    s.T = 0#7 ∧ s.N.toNat ≤ 63 := by
  rcases (isHost_iff p).1 hp with rfl | rfl | rfl | rfl
  · obtain ⟨hT, hN, -⟩ := h
    exact ⟨hT, by rw [hN]; decide⟩
  · exact ⟨h.1, h.2.1⟩
  · obtain ⟨hT, hN, -⟩ := h
    exact ⟨hT, by rw [hN]; decide⟩
  · exact h

/-- Taking an exception keeps the invariant (R219). -/
theorem inv_raise {c : ErrCode} {s : State} (h : s.Inv) (hp : s.PH.isHost = true) (hc : c ≠ .ok) :
    (raise c s).Inv := by
  obtain ⟨⟨hmem, hwritten, hresume, hlen8, hcause⟩, hphase⟩ := (inv_iff s).1 h
  refine (inv_iff _).2 ⟨⟨by simpa, by simpa, by simpa, by simpa, ?_⟩, ?_⟩
  · rw [raise_ERRC, raise_PH]
    split
    case isTrue herr => exact iff_of_true (hcause.2 herr) rfl
    case isFalse => exact iff_of_true hc rfl
  · rw [raise_PH]
    exact State.PhaseInv.congr (p := .error) (hphase.of_isHost hp) (by simp) (by simp) (by simp) (by simp)

/-- Every command keeps the invariant in every host phase. -/
theorem inv_exec_command {s t : State} {c : CmdWord} {i : Instr} (h : s.Inv) (hp : s.PH.isHost = true)
    (hc : decodeCommand c = .ok i) (hexec : exec i s = .next t) : t.Inv := by
  have hraise : (raise .illegalCommand s).Inv := inv_raise h hp nofun
  obtain ⟨hcommon, hphase⟩ := (inv_iff s).1 h
  rcases decodeCommand_ok c i hc with rfl | ⟨b, rfl⟩ | rfl | ⟨k, rfl⟩ | ⟨j, rfl⟩ | rfl
  · cases hexec
    exact (inv_iff _).2 ⟨⟨hcommon.mem, fun _ ha => absurd ha (Nat.not_lt_zero _), .inl rfl, rfl, by simp⟩,
      rfl, Nat.zero_le _, by simp [State.lenFill]⟩
  · rcases (execData_eq_next b s t).1 hexec with ⟨-, rfl⟩ | ⟨-, -, rfl⟩ | ⟨hPH, hmax, -, rfl⟩
    · exact hraise
    · exact inv_raise h hp nofun
    · exact (inv_data h hPH hmax b).respond _ _
  · rcases (execFinal_eq_next s t).1 hexec with ⟨-, rfl⟩ | ⟨hPH, rfl⟩
    · exact hraise
    · exact (inv_iff _).2 ⟨hcommon.of_frame rfl le_rfl rfl rfl rfl (by simp [hPH]), hphase.of_isHost hp⟩
  · rcases (execRdh_eq_next k s t).1 hexec with ⟨-, rfl⟩ | ⟨-, -, rfl⟩
    · exact hraise
    · exact h.respond _ _
  · rcases (execRdx_eq_next j s t).1 hexec with ⟨-, rfl⟩ | ⟨-, -, rfl⟩
    · exact hraise
    · exact h.respond _ _
  · cases hexec
    exact h.respond _ _

/-- No command faults in a host phase: `DATA` appends in `ABSORB` only, where the buffer is not full. -/
theorem exists_exec_command {s : State} {c : CmdWord} {i : Instr} (h : s.Inv) (hp : s.PH.isHost = true)
    (hc : decodeCommand c = .ok i) : ∃ t, exec i s = .next t := by
  have hN := (((inv_iff s).1 h).2.of_isHost hp).2
  rcases decodeCommand_ok c i hc with rfl | ⟨b, rfl⟩ | rfl | ⟨k, rfl⟩ | ⟨j, rfl⟩ | rfl
  · exact ⟨_, rfl⟩
  · by_cases hPH : s.PH = .absorb
    · by_cases hmax : s.LEN = Config.maxLen
      · exact ⟨_, (execData_eq_next b s _).2 (.inr (.inl ⟨hPH, hmax, rfl⟩))⟩
      · exact ⟨_, (execData_eq_next b s _).2 (.inr (.inr ⟨hPH, hmax, Nat.lt_succ_of_le hN, rfl⟩))⟩
    · exact ⟨_, (execData_eq_next b s _).2 (.inl ⟨hPH, rfl⟩)⟩
  · by_cases hPH : s.PH = .absorb
    · exact ⟨_, (execFinal_eq_next s _).2 (.inr ⟨hPH, rfl⟩)⟩
    · exact ⟨_, (execFinal_eq_next s _).2 (.inl ⟨hPH, rfl⟩)⟩
  · by_cases hlegal : s.PH = .done ∧ k.toNat < 8
    · exact ⟨_, (execRdh_eq_next k s _).2 (.inr ⟨hlegal.1, hlegal.2, rfl⟩)⟩
    · exact ⟨_, (execRdh_eq_next k s _).2 (.inl ⟨by rwa [← not_lt, ← not_and_or], rfl⟩)⟩
  · by_cases hlegal : s.PH = .done ∧ j.toNat < 64
    · exact ⟨_, (execRdx_eq_next j s _).2 (.inr ⟨hlegal.1, hlegal.2, rfl⟩)⟩
    · exact ⟨_, (execRdx_eq_next j s _).2 (.inl ⟨by rwa [← not_lt, ← not_and_or], rfl⟩)⟩
  · exact ⟨_, rfl⟩

/-! ### The step -/

/-- Settles O46: each case of a step keeps the invariant. -/
theorem stepKeepsInvariant : Obligations.StepKeepsInvariant := by
  intro s t h hstep
  rcases step_cases s with ⟨-, hs⟩ | ⟨-, i, hi, hs⟩ | ⟨-, -, -, hs⟩ | ⟨-, hp, c, i, -, hd, hs⟩ | ⟨-, hp, c, e, -, -, hs⟩
  · cases hs.symm.trans hstep
    exact inv_resetEdge _
  · exact inv_exec_microOp h.nextEdge hi (hs.symm.trans hstep)
  · cases hs.symm.trans hstep
    exact h.nextEdge
  · exact inv_exec_command h.takeCommand hp hd (hs.symm.trans hstep)
  · cases hs.symm.trans hstep
    exact inv_raise h.takeCommand hp nofun

/-- Settles O47: a step is an edge that cannot fault, or an instruction run in a phase in which it does not. -/
theorem invariantStatesNeverStop : Obligations.InvariantStatesNeverStop := by
  intro s h
  rcases step_cases s with ⟨-, hs⟩ | ⟨-, i, hi, hs⟩ | ⟨-, -, -, hs⟩ | ⟨-, hp, c, i, -, hd, hs⟩ | ⟨-, hp, c, e, -, -, hs⟩
  · exact ⟨_, hs⟩
  · rw [hs]
    exact exists_exec_microOp h.nextEdge hi
  · exact ⟨_, hs⟩
  · rw [hs]
    exact exists_exec_command h.takeCommand hp hd
  · exact ⟨_, hs⟩

/-! ### The phase graph -/

/-- From a host phase a command may stay, raise, or, by `INIT`, lead to `ABSORB` (R193, R197). -/
theorem mem_successors_of_isHost {p : Phase} (hp : p.isHost = true) :
    p ∈ successors p ∧ .absorb ∈ successors p ∧ .error ∈ successors p := by
  rcases (isHost_iff p).1 hp with rfl | rfl | rfl | rfl <;> decide

theorem PH_mem_successors_of_microOp {s t : State} {i : Instr} (h : s.Inv) (hi : s.PH.microOp = some i)
    (hexec : exec i s = .next t) : t.PH ∈ successors s.PH := by
  cases hPH : s.PH <;> rw [hPH] at hi <;> cases hi
  case padt =>
    obtain ⟨-, rfl⟩ := (execPadt_eq_next s t).1 hexec
    rw [nextAfterAppend_PH]
    split_ifs <;> decide
  case padz =>
    obtain ⟨-, rfl⟩ := (execPadz_eq_next s t).1 hexec
    rw [nextAfterAppend_PH]
    split_ifs <;> decide
  case padl =>
    obtain ⟨-, rfl⟩ := (execPadl_eq_next s t).1 hexec
    rw [nextAfterByte_PH]
    split_ifs <;> decide
  case schld =>
    obtain ⟨_, -, _, rfl⟩ := (execSchld_eq_next s t).1 hexec
    rw [advance_PH]
    split_ifs <;> decide
  case schex =>
    obtain ⟨_, _, rfl⟩ := (execSchex_eq_next s t).1 hexec
    rw [advance_PH]
    split_ifs <;> decide
  case load =>
    cases hexec
    exact List.mem_singleton_self _
  case round =>
    obtain ⟨_, rfl⟩ := (execRound_eq_next s t).1 hexec
    rw [advance_PH]
    split_ifs <;> decide
  case fold =>
    cases hexec
    rcases h.resume with hRS | hRS | hRS <;> simp [successors, hRS]

theorem PH_mem_successors_of_command {s t : State} {c : CmdWord} {i : Instr} (hp : s.PH.isHost = true)
    (hc : decodeCommand c = .ok i) (hexec : exec i s = .next t) : t.PH ∈ successors s.PH := by
  obtain ⟨hstay, habsorb, herror⟩ := mem_successors_of_isHost hp
  have hraise : ∀ e, (raise e s).PH ∈ successors s.PH := fun e => by rwa [raise_PH]
  rcases decodeCommand_ok c i hc with rfl | ⟨b, rfl⟩ | rfl | ⟨k, rfl⟩ | ⟨j, rfl⟩ | rfl
  · cases hexec
    exact habsorb
  · rcases (execData_eq_next b s t).1 hexec with ⟨-, rfl⟩ | ⟨-, -, rfl⟩ | ⟨hPH, -, -, rfl⟩
    · exact hraise _
    · exact hraise _
    · rw [respond_PH, nextAfterByte_PH, hPH]
      split_ifs <;> decide
  · rcases (execFinal_eq_next s t).1 hexec with ⟨-, rfl⟩ | ⟨hPH, rfl⟩
    · exact hraise _
    · simp [successors, hPH]
  · rcases (execRdh_eq_next k s t).1 hexec with ⟨-, rfl⟩ | ⟨-, -, rfl⟩
    · exact hraise _
    · exact hstay
  · rcases (execRdx_eq_next j s t).1 hexec with ⟨-, rfl⟩ | ⟨-, -, rfl⟩
    · exact hraise _
    · exact hstay
  · cases hexec
    exact hstay

/-- Settles O48: a reset edge leads to `IDLE`, and each instruction along an edge from the phase that runs it. -/
theorem stepsFollowPhaseGraph : Obligations.StepsFollowPhaseGraph := by
  intro s t h hstep
  rcases step_cases s with
    ⟨hr, hs⟩ | ⟨hr, i, hi, hs⟩ | ⟨hr, hp, -, hs⟩ | ⟨hr, hp, c, i, -, hd, hs⟩ | ⟨hr, hp, c, e, -, -, hs⟩
  · cases hs.symm.trans hstep
    exact ⟨fun _ => rfl, fun hr' => by simp [hr] at hr'⟩
  all_goals refine ⟨fun hr' => by simp [hr] at hr', fun _ => ?_⟩
  · exact PH_mem_successors_of_microOp (s := s.nextEdge) h.nextEdge hi (hs.symm.trans hstep)
  · cases hs.symm.trans hstep
    exact (mem_successors_of_isHost hp).1
  · exact PH_mem_successors_of_command (s := s.takeCommand) hp hd (hs.symm.trans hstep)
  · cases hs.symm.trans hstep
    rw [raise_PH]
    exact (mem_successors_of_isHost hp).2.2

/-! ### The length counter -/

/-- No micro-operation writes `LEN` (R30). -/
theorem LEN_of_microOp {p : Phase} {s t : State} {i : Instr} (hi : p.microOp = some i) (hexec : exec i s = .next t) :
    t.LEN = s.LEN := by
  cases p <;> cases hi
  case padt => obtain ⟨-, rfl⟩ := (execPadt_eq_next s t).1 hexec; simp
  case padz => obtain ⟨-, rfl⟩ := (execPadz_eq_next s t).1 hexec; simp
  case padl => obtain ⟨-, rfl⟩ := (execPadl_eq_next s t).1 hexec; simp
  case schld => obtain ⟨_, -, _, rfl⟩ := (execSchld_eq_next s t).1 hexec; simp
  case schex => obtain ⟨_, _, rfl⟩ := (execSchex_eq_next s t).1 hexec; simp
  case load => cases hexec; rfl
  case round => obtain ⟨_, rfl⟩ := (execRound_eq_next s t).1 hexec; simp
  case fold => cases hexec; rfl

/-- `INIT` clears `LEN`, a `DATA` that appends adds 8 to it, and no other command writes it (R30). -/
theorem LEN_of_command {s t : State} {c : CmdWord} {i : Instr} (hc : decodeCommand c = .ok i)
    (hexec : exec i s = .next t) :
    t.LEN = s.LEN ∨ (i = .init ∧ t.LEN = 0#64) ∨
      ((∃ b, i = .data b) ∧ s.PH = .absorb ∧ s.LEN ≠ Config.maxLen ∧ t.LEN = s.LEN + 8#64) := by
  rcases decodeCommand_ok c i hc with rfl | ⟨b, rfl⟩ | rfl | ⟨k, rfl⟩ | ⟨j, rfl⟩ | rfl
  · cases hexec
    exact .inr (.inl ⟨rfl, rfl⟩)
  · rcases (execData_eq_next b s t).1 hexec with ⟨-, rfl⟩ | ⟨-, -, rfl⟩ | ⟨hPH, hmax, -, rfl⟩
    · exact .inl (raise_LEN ..)
    · exact .inl (raise_LEN ..)
    · exact .inr (.inr ⟨⟨b, rfl⟩, hPH, hmax, by simp⟩)
  · rcases (execFinal_eq_next s t).1 hexec with ⟨-, rfl⟩ | ⟨-, rfl⟩
    · exact .inl (raise_LEN ..)
    · exact .inl rfl
  · rcases (execRdh_eq_next k s t).1 hexec with ⟨-, rfl⟩ | ⟨-, -, rfl⟩
    · exact .inl (raise_LEN ..)
    · exact .inl rfl
  · rcases (execRdx_eq_next j s t).1 hexec with ⟨-, rfl⟩ | ⟨-, -, rfl⟩
    · exact .inl (raise_LEN ..)
    · exact .inl rfl
  · cases hexec
    exact .inl rfl

/-- Settles O49: `DATA` tests the counter before it adds, and under the invariant the counter below its maximum has
room for 8 more. -/
theorem lengthCounterNeverWraps : Obligations.LengthCounterNeverWraps := by
  intro s t h hstep
  rcases step_cases s with
    ⟨hr, hs⟩ | ⟨-, i, hi, hs⟩ | ⟨-, -, -, hs⟩ | ⟨-, -, c, i, hc, hd, hs⟩ | ⟨-, -, c, e, -, -, hs⟩
  · cases hs.symm.trans hstep
    exact .inr (.inl ⟨rfl, .inl hr⟩)
  · exact .inl (LEN_of_microOp (s := s.nextEdge) hi (hs.symm.trans hstep))
  · cases hs.symm.trans hstep
    exact .inl rfl
  · obtain ⟨hinitRow, hdataRow, -⟩ := decodeCommand_rows c
    rcases LEN_of_command hd (hs.symm.trans hstep) with hkeep | ⟨rfl, hzero⟩ | ⟨⟨b, rfl⟩, hPH, hmax, hadd⟩
    · exact .inl hkeep
    · exact .inr (.inl ⟨hzero, .inr (hc.trans (congrArg some (BitVec.eq_of_toNat_eq (hinitRow.1 hd))))⟩)
    · exact .inr (.inr ⟨by rw [hadd]; exact toNat_LEN_add h.len8 hmax, hPH, c, hc,
        (dataRow_iff c).2 (hdataRow.1 ⟨b, hd⟩)⟩)
  · cases hs.symm.trans hstep
    exact .inl (raise_LEN ..)

end Sys2Proof.Machine
end

section
/-! Proofs of the runs of one block (42_scheduler.md R144, 43_compression.md R160). The scheduler and the rounds are two
counted loops; the state after `k` steps of each is written out, so that one step of it is one micro-operation. -/

namespace Sys2Proof.Machine

open Claim

/-! ### Counting steps -/

/-- A run and then a step. -/
theorem run_succ_of_run {k : Nat} {s t u : State} (h : Host.Core.run core k s = .next t) (hstep : step t = .next u) :
    Host.Core.run core (k + 1) s = .next u := by
  rw [run_add k 1 s t h, run_succ 0 t u hstep, run_zero]

/-- Later edges of a run in which no reset is planned have none either. -/
theorem State.noReset.drop {s t : State} (h : s.noReset) {k : Nat} (ht : t.edges = s.edges.drop k) : t.noReset :=
  fun e he => h e (List.mem_of_mem_drop (ht ▸ he))

/-- The move of the index in a counted loop, from the count `k` (R28). -/
theorem advance_of_count {limit k : Nat} {next same : Phase} {s : State} (hk : k < limit) (hlimit : limit < 128)
    (hT : s.T = BitVec.ofNat 7 k) :
    advance (BitVec.ofNat 7 limit) next same s =
      { s with T := BitVec.ofNat 7 (k + 1), PH := if k + 1 < limit then same else next } := by
  have hsucc : s.T + 1#7 = BitVec.ofNat 7 (k + 1) := by rw [hT, BitVec.ofNat_add]
  have heq : BitVec.ofNat 7 (k + 1) = BitVec.ofNat 7 limit ↔ ¬ k + 1 < limit := by
    rw [← BitVec.toNat_inj, BitVec.toNat_ofNat, BitVec.toNat_ofNat, Nat.mod_eq_of_lt (by omega),
      Nat.mod_eq_of_lt hlimit]
    omega
  simp only [advance, hsucc, heq, ite_not]

/-! ### The schedule -/

/-- `s` after `k` steps of `SCHLD` and `SCHEX`, with the message schedule `W`. -/
def scheduling (s : State) (k : Nat) (W : Vector Word 64) : State :=
  { s with
    W := W, T := BitVec.ofNat 7 k
    PH := if k < 16 then .schld else if k < 64 then .schex else .load
    edges := s.edges.drop k }

/-- The first `k` words of `W` are those of the list. -/
def FirstWords (ws : List Word) (k : Nat) (W : Vector Word 64) : Prop :=
  ∀ (i : Nat) (h : i < 64), i < k → ws[i]? = some W[i]

theorem FirstWords.set {ws : List Word} {k : Nat} {W : Vector Word 64} {w : Word} (h : FirstWords ws k W)
    (hk : k < 64) (hw : ws[k]? = some w) : FirstWords ws (k + 1) (W.set k w) := by
  intro i hi hik
  rw [Vector.getElem_set]
  split
  case isTrue heq => rw [← heq, hw]
  case isFalse hne => exact h i hi (by omega)

theorem scheduling_T_toNat (s : State) {k : Nat} (W : Vector Word 64) (hk : k ≤ 64) :
    (scheduling s k W).nextEdge.T.toNat = k :=
  Nat.mod_eq_of_lt (Nat.lt_of_le_of_lt hk (by decide))

/-- Word `k` stored and the index advanced, in either phase of the scheduler. -/
theorem advance_scheduling {s : State} {limit k : Nat} {next same : Phase} {W : Vector Word 64} (w : Word) (hk : k < 64)
    (hlimit : limit < 128) (hlt : k < limit)
    (hPH : (if k + 1 < limit then same else next) = if k + 1 < 16 then .schld else if k + 1 < 64 then .schex else .load)
    (h : (scheduling s k W).nextEdge.T.toNat < 64) :
    advance (BitVec.ofNat 7 limit) next same
      { (scheduling s k W).nextEdge with
        W := (scheduling s k W).nextEdge.W.set (scheduling s k W).nextEdge.T.toNat w } =
      scheduling s (k + 1) (W.set k w) := by
  have hset : (scheduling s k W).nextEdge.W.set (scheduling s k W).nextEdge.T.toNat w = W.set k w := by
    simp only [scheduling_T_toNat s W hk.le]
    rfl
  rw [advance_of_count hlt hlimit rfl, hPH, hset]
  simp only [scheduling, State.nextEdge, List.tail_drop]

/-- `SCHLD` with index `k` stores word `k` of the block (R141). -/
theorem step_scheduling_schld {s : State} {blk : List Byte} {k : Nat} {W : Vector Word 64} (hr : s.noReset)
    (hblk : blk.length = 64) (hB : ∀ a, a < 64 → s.B.read a = blk[a]?) (hk : k < 16) :
    ∃ w, (schedule blk)[k]? = some w ∧
      step (scheduling s k W) = .next (scheduling s (k + 1) (W.set k w)) := by
  have hbyte : ∀ a, (ha : a < 64) → blk[a]? = some blk[a] := fun a ha => List.getElem?_eq_getElem (by omega)
  have hcount := scheduling_T_toNat s W (k := k) (by omega)
  have hphase : (scheduling s k W).PH = .schld := if_pos hk
  refine ⟨assembleWord blk[4 * k] blk[4 * k + 1] blk[4 * k + 2] blk[4 * k + 3], ?_, ?_⟩
  · exact getElem?_extendSchedule_of_eq_some 48 (getElem?_wordsOf blk k (hbyte _ (by omega)) (hbyte _ (by omega))
      (hbyte _ (by omega)) (hbyte _ (by omega)))
  · rw [step_microOp _ .schld (rst_of_noReset _ (hr.drop (k := k) rfl)) (by rw [hphase]; rfl)]
    refine (execSchld_eq_next _ _).2 ⟨_, (memRead4_eq_ok _ _ _).2 ?_, by omega,
      (advance_scheduling _ (by omega) (by decide) hk ?_ _).symm⟩
    · rw [hcount]
      have hread : ∀ a, (ha : a < 64) → (scheduling s k W).nextEdge.B.read a = some blk[a] := fun a ha =>
        (hB a ha).trans (hbyte a ha)
      exact ⟨by omega, _, _, _, _, hread _ (by omega), hread _ (by omega), hread _ (by omega), hread _ (by omega), rfl⟩
    · rw [if_pos (show k + 1 < 64 by omega)]

/-- `SCHEX` with index `k` stores the recurrence's value on the words before it (R142). -/
theorem step_scheduling_schex {s : State} {blk : List Byte} {k : Nat} {W : Vector Word 64} (hr : s.noReset)
    (hblk : blk.length = 64) (hlo : 16 ≤ k) (hhi : k < 64) (hW : FirstWords (schedule blk) k W) :
    ∃ w, (schedule blk)[k]? = some w ∧
      step (scheduling s k W) = .next (scheduling s (k + 1) (W.set k w)) := by
  have hcount := scheduling_T_toNat s W hhi.le
  have hphase : (scheduling s k W).PH = .schex := (if_neg (by omega)).trans (if_pos hhi)
  obtain ⟨-, -, hrec⟩ := scheduleMeetsRecurrence blk hblk
  refine ⟨_, hrec k _ _ _ _ hlo hhi (hW (k - 15) (by omega) (by omega))
    (hW (k - 16) (by omega) (by omega)) (hW (k - 2) (by omega) (by omega)) (hW (k - 7) (by omega) (by omega)), ?_⟩
  rw [step_microOp _ .schex (rst_of_noReset _ (hr.drop (k := k) rfl)) (by rw [hphase]; rfl)]
  refine (execSchex_eq_next _ _).2 ⟨by omega, by omega, ?_⟩
  rw [advance_scheduling _ hhi (by decide) hhi (by rw [if_neg (show ¬ k + 1 < 16 by omega)])]
  simp only [hcount]
  rfl

/-- `k` steps of the scheduler store the first `k` words of the schedule. -/
theorem run_scheduling {s : State} {blk : List Byte} (hr : s.noReset) (hPH : s.PH = .schld) (hT : s.T = 0#7)
    (hblk : blk.length = 64) (hB : ∀ a, a < 64 → s.B.read a = blk[a]?) (k : Nat) (hk : k ≤ 64) :
    ∃ W, Host.Core.run core k s = .next (scheduling s k W) ∧ FirstWords (schedule blk) k W := by
  induction k with
  | zero =>
    have hstart : scheduling s 0 s.W = s := by
      rw [scheduling, ← hPH, ← hT]
      rfl
    exact ⟨s.W, by rw [hstart]; rfl, fun _ _ h => absurd h (Nat.not_lt_zero _)⟩
  | succ k ih =>
    obtain ⟨W, hrun, hW⟩ := ih (by omega)
    have hstep : ∃ w, (schedule blk)[k]? = some w ∧
        step (scheduling s k W) = .next (scheduling s (k + 1) (W.set k w)) := by
      rcases Nat.lt_or_ge k 16 with hlo | hlo
      · exact step_scheduling_schld hr hblk hB hlo
      · exact step_scheduling_schex hr hblk hlo hk hW
    obtain ⟨w, hw, hstep⟩ := hstep
    exact ⟨W.set k w, run_succ_of_run hrun hstep, hW.set hk hw⟩

theorem FirstWords.toList_eq {ws : List Word} {W : Vector Word 64} (h : FirstWords ws 64 W) (hlen : ws.length = 64) :
    W.toList = ws := by
  refine List.ext_getElem? fun i => ?_
  rcases Nat.lt_or_ge i 64 with hi | hi
  · rw [h i hi hi]
    simp [hi]
  · rw [List.getElem?_eq_none (by simpa), List.getElem?_eq_none (by omega)]

/-- Settles O53: the two loops of the scheduler, 64 steps together. -/
theorem schedulerComputesSchedule : Obligations.SchedulerComputesSchedule := by
  intro s blk hr hPH hT hblk hB
  obtain ⟨W, hrun, hW⟩ := run_scheduling hr hPH hT hblk hB 64 le_rfl
  obtain ⟨hlen, -⟩ := scheduleMeetsRecurrence blk hblk
  exact ⟨_, hrun, rfl, hW.toList_eq hlen, rfl, rfl, rfl, rfl, rfl⟩

/-! ### The rounds -/

/-- The working registers after `k` rounds over the schedule words `ws` (R156). -/
def roundsOf (ws : List Word) (Hin : Words8) (k : Nat) : Words8 :=
  (((List.finRange 64).zip ws).take k).foldl (fun r p => round p.1 r p.2) Hin

theorem roundsOf_succ {ws : List Word} {k : Nat} {w : Word} (Hin : Words8) (hk : k < 64) (hw : ws[k]? = some w) :
    roundsOf ws Hin (k + 1) = roundWith K[k] w (roundsOf ws Hin k) := by
  have hpair : ((List.finRange 64).zip ws)[k]? = some (⟨k, hk⟩, w) := by
    rw [List.getElem?_zip_eq_some]
    exact ⟨by simp [hk], hw⟩
  rw [roundsOf, List.take_add_one, hpair, List.foldl_append]
  rfl

theorem compress_eq (Hin : Words8) (blk : List Byte) :
    compress Hin blk = add8 Hin (roundsOf (schedule blk) Hin 64) := by
  rw [compress, roundsOf, List.take_of_length_le (by simp)]

/-- `s` after `LOAD` and `k` steps of `ROUND`, with the working registers `R`. -/
def rounding (s : State) (k : Nat) (R : Words8) : State :=
  { s with
    R := R, T := BitVec.ofNat 7 k
    PH := if k < 64 then .round else .fold
    edges := s.edges.drop k }

/-- `ROUND` with index `k` is round `k` (R155, R158). -/
theorem step_rounding {s : State} {k : Nat} {R : Words8} (hr : s.noReset) (hk : k < 64) :
    step (rounding s k R) = .next (rounding s (k + 1) (roundWith K[k] s.W[k] R)) := by
  have hcount : (rounding s k R).nextEdge.T.toNat = k := Nat.mod_eq_of_lt (by omega)
  have hphase : (rounding s k R).PH = .round := if_pos hk
  rw [step_microOp _ .round (rst_of_noReset _ (hr.drop (k := k) rfl)) (by rw [hphase]; rfl)]
  refine (execRound_eq_next _ _).2 ⟨by omega, ?_⟩
  rw [advance_of_count (limit := 64) hk (by decide) rfl]
  simp only [hcount]
  simp only [rounding, State.nextEdge, List.tail_drop]

/-- `k` steps of `ROUND` are the first `k` rounds over the schedule. -/
theorem run_rounding {s : State} {ws : List Word} (hr : s.noReset) (hPH : s.PH = .round) (hT : s.T = 0#7)
    (hR : s.R = s.H) (hW : FirstWords ws 64 s.W) (k : Nat) (hk : k ≤ 64) :
    Host.Core.run core k s = .next (rounding s k (roundsOf ws s.H k)) := by
  induction k with
  | zero =>
    have hstart : rounding s 0 s.R = s := by
      rw [rounding, if_pos (by decide), ← hPH, ← hT]
      rfl
    show Host.Core.run core 0 s = .next (rounding s 0 s.H)
    rw [← hR, hstart, run_zero]
  | succ k ih =>
    rw [roundsOf_succ s.H hk (hW k hk hk)]
    exact run_succ_of_run (ih (by omega)) (step_rounding hr hk)

/-! ### The block -/

/-- `s` after 64 steps of the scheduler and `LOAD` (R157). -/
def loaded (s : State) (W : Vector Word 64) : State :=
  { s with W := W, R := s.H, T := 0#7, PH := .round, edges := s.edges.drop 65 }

/-- `s` after the whole block, with the schedule `W` and the working registers `R` (R159). -/
def folded (s : State) (W : Vector Word 64) (R : Words8) : State :=
  { s with
    H := add8 s.H R, R := R, W := W, N := 0#7, T := 0#7, PH := s.RS, edges := s.edges.drop 130 }

theorem step_load {s : State} {W : Vector Word 64} (hr : s.noReset) :
    step (scheduling s 64 W) = .next (loaded s W) := by
  rw [step_microOp _ .load (rst_of_noReset _ (hr.drop (k := 64) rfl)) rfl, loaded, ← List.tail_drop]
  rfl

theorem step_fold {s : State} {W : Vector Word 64} {R : Words8} (hr : s.noReset) :
    step (rounding (loaded s W) 64 R) = .next (folded s W R) := by
  have hedges : (rounding (loaded s W) 64 R).edges = s.edges.drop 129 := List.drop_drop
  rw [step_microOp _ .fold (rst_of_noReset _ (hr.drop hedges)) rfl, folded, ← List.tail_drop, ← hedges]
  rfl

/-- One block: 64 steps of the scheduler, `LOAD`, 64 rounds and `FOLD`. -/
theorem run_block {s : State} {blk : List Byte} (hr : s.noReset) (hPH : s.PH = .schld) (hT : s.T = 0#7)
    (hblk : blk.length = 64) (hB : ∀ a, a < 64 → s.B.read a = blk[a]?) :
    ∃ W, Host.Core.run core 130 s = .next (folded s W (roundsOf (schedule blk) s.H 64)) := by
  obtain ⟨W, hsched, hW⟩ := run_scheduling hr hPH hT hblk hB 64 le_rfl
  have hrounds := run_rounding (s := loaded s W) (hr.drop (k := 65) rfl) rfl rfl rfl hW 64 le_rfl
  refine ⟨W, ?_⟩
  rw [run_add 65 65 s _ (run_succ_of_run hsched (step_load hr))]
  exact run_succ_of_run hrounds (step_fold hr)

/-- Settles O54: the fold adds the 64 rounds to the hash state, and the control registers are as `FOLD` leaves them. -/
theorem engineCompressesBlock : Obligations.EngineCompressesBlock := by
  intro s blk hr hPH hT hblk hB
  obtain ⟨W, hrun⟩ := run_block hr hPH hT hblk hB
  exact ⟨_, hrun, rfl, rfl, rfl, (compress_eq s.H blk).symm, rfl, rfl, rfl⟩

end Sys2Proof.Machine
end

section
/-! Proof of the progress statement (45_commands.md R198). The engine's steps to the next host phase are counted exactly
from the phase, the resume register and the two counters, and each micro-operation takes the count down by one. -/

namespace Sys2Proof.Machine

/-- Steps from the phase in which a block resumes: from `PADZ` with an empty buffer, 56 zero bytes, 8 length bytes and
another block. -/
def resumeSteps : Phase → Nat
  | .padz => 56 + 8 + 130
  | _ => 0

/-- Steps to the next host phase, with `n = N` and `t = T`: the block of 130 steps is counted down by `T`, and the
padder fills the buffer up before it; padding bytes from `N = 56` on lead to an extra block. -/
def hostSteps (p r : Phase) (n t : Nat) : Nat :=
  match p with
  | .idle | .absorb | .done | .error => 0
  | .padt | .padz => 64 - n + 130 + (n / 56) * resumeSteps .padz
  | .padl => 64 - n + 130
  | .schld | .schex => 130 - t + resumeSteps r
  | .load => 66 + resumeSteps r
  | .round => 65 - t + resumeSteps r
  | .fold => 1 + resumeSteps r

theorem resumeSteps_padz : resumeSteps .padz = 194 := rfl

def State.hostSteps (s : State) : Nat := Machine.hostSteps s.PH s.RS s.N.toNat s.T.toNat

/-- A padding byte takes the count down (R127). -/
theorem hostSteps_nextAfterAppend {s : State} (hPH : s.PH = .padt ∨ s.PH = .padz) (hN : s.N.toNat < 64) (v : Byte) :
    (nextAfterAppend .padz { s with B := s.B.write s.N.toNat v, N := s.N + 1#7 }).hostSteps + 1 = s.hostSteps := by
  have hleft : s.hostSteps = 64 - s.N.toNat + 130 + (s.N.toNat / 56) * resumeSteps .padz := by
    rcases hPH with h | h <;> rw [State.hostSteps, h] <;> rfl
  have h63 : s.N = 63#7 ↔ s.N.toNat = 63 := BitVec.toNat_inj.symm
  have h55 : s.N = 55#7 ↔ s.N.toNat = 55 := BitVec.toNat_inj.symm
  rw [hleft, nextAfterAppend_of_appended]
  simp only [State.hostSteps, h63, h55, toNat_add_one hN]
  split_ifs <;> simp only [hostSteps, resumeSteps, BitVec.toNat_ofNat] <;> omega

theorem hostSteps_padl {s : State} (hPH : s.PH = .padl) (hN : s.N.toNat < 64) (v : Byte) :
    (nextAfterByte .done .padl { s with B := s.B.write s.N.toNat v, N := s.N + 1#7 }).hostSteps + 1 = s.hostSteps := by
  have h63 : s.N = 63#7 ↔ s.N.toNat = 63 := BitVec.toNat_inj.symm
  rw [nextAfterByte_of_appended]
  simp only [State.hostSteps, hPH, h63, toNat_add_one hN]
  split_ifs <;> simp only [hostSteps, resumeSteps, BitVec.toNat_ofNat] <;> omega

/-- A counted step takes the count down: the phase and its successor count from the same end (R28). -/
theorem hostSteps_advance {limit : BitVec 7} {next same : Phase} {s : State} (hT : s.T.toNat < 64)
    (hlast : s.T.toNat + 1 = limit.toNat →
      hostSteps next s.RS s.N.toNat (s.T.toNat + 1) + 1 = hostSteps s.PH s.RS s.N.toNat s.T.toNat)
    (hmore : hostSteps same s.RS s.N.toNat (s.T.toNat + 1) + 1 = hostSteps s.PH s.RS s.N.toNat s.T.toNat) :
    (advance limit next same s).hostSteps + 1 = s.hostSteps := by
  have hsucc := toNat_add_one hT
  simp only [State.hostSteps, advance_PH, advance_RS, advance_N, advance_T, hsucc]
  split
  case isTrue heq => exact hlast (by rw [← heq, hsucc])
  case isFalse => exact hmore

/-- Every micro-operation is one of the counted steps. -/
theorem hostSteps_of_microOp {s t : State} {i : Instr} (h : s.Inv) (hi : s.PH.microOp = some i)
    (hexec : exec i s = .next t) : t.hostSteps + 1 = s.hostSteps := by
  obtain ⟨hcommon, hphase⟩ := (inv_iff s).1 h
  cases hPH : s.PH <;> rw [hPH] at hi hphase <;> cases hi
  case padt =>
    obtain ⟨hN, rfl⟩ := (execPadt_eq_next s t).1 hexec
    exact hostSteps_nextAfterAppend (.inl hPH) hN _
  case padz =>
    obtain ⟨hN, rfl⟩ := (execPadz_eq_next s t).1 hexec
    exact hostSteps_nextAfterAppend (.inr hPH) hN _
  case padl =>
    obtain ⟨⟨-, hN⟩, rfl⟩ := (execPadl_eq_next s t).1 hexec
    exact hostSteps_padl hPH (Nat.lt_succ_of_le hN) _
  case schld =>
    obtain ⟨w, -, hT, rfl⟩ := (execSchld_eq_next s t).1 hexec
    refine hostSteps_advance (s := { s with W := s.W.set s.T.toNat w }) hT (fun _ => ?_) ?_
    all_goals
      simp only [hPH, hostSteps]
      omega
  case schex =>
    obtain ⟨-, hT, rfl⟩ := (execSchex_eq_next s t).1 hexec
    refine hostSteps_advance (s := { s with W := s.W.set s.T.toNat _ }) hT (fun (hlast : s.T.toNat + 1 = 64) => ?_) ?_
    all_goals
      simp only [hPH, hostSteps]
      omega
  case load =>
    cases hexec
    simp only [State.hostSteps, hPH, hostSteps, BitVec.toNat_zero]
    omega
  case round =>
    obtain ⟨hT, rfl⟩ := (execRound_eq_next s t).1 hexec
    refine hostSteps_advance (s := { s with R := roundWith K[s.T.toNat] s.W[s.T.toNat] s.R }) hT
      (fun (hlast : s.T.toNat + 1 = 64) => ?_) ?_
    all_goals
      simp only [hPH, hostSteps]
      omega
  case fold =>
    cases hexec
    rcases hcommon.resume with hRS | hRS | hRS <;> simp [State.hostSteps, hPH, hRS, hostSteps, resumeSteps]

/-- The longest way starts in `PADT` at `N = 56`: 8 bytes, a block, 64 bytes and another block. -/
theorem hostSteps_le {s : State} (h : s.Inv) : s.hostSteps ≤ 332 := by
  obtain ⟨-, hphase⟩ := (inv_iff s).1 h
  have hresume : resumeSteps s.RS ≤ 194 := by cases s.RS <;> decide
  cases hPH : s.PH <;> rw [hPH] at hphase <;> simp only [State.hostSteps, hPH, hostSteps, resumeSteps_padz]
  case padt =>
    obtain ⟨-, hN⟩ := hphase
    omega
  case padz =>
    obtain ⟨-, hN, -⟩ := hphase
    omega
  all_goals omega

theorem hostSteps_of_isHost {s : State} (hp : s.PH.isHost = true) : s.hostSteps = 0 := by
  rcases (isHost_iff s.PH).1 hp with h | h | h | h <;> rw [State.hostSteps, h] <;> rfl

/-- An engine step, without a reset, is one counted step and touches neither the responses nor the held words. -/
theorem exists_step_of_engine {s : State} (h : s.Inv) (hr : s.noReset) (hp : s.PH.isHost = false) :
    ∃ t, step s = .next t ∧ t.Inv ∧ t.noReset ∧ t.hostSteps + 1 = s.hostSteps ∧ t.RSP = s.RSP ∧ t.cmds = s.cmds := by
  obtain ⟨i, hi⟩ := exists_microOp_of_not_isHost hp
  obtain ⟨t, hstep⟩ := invariantStatesNeverStop s h
  have hexec := (step_microOp s i (rst_of_noReset s hr) hi).symm.trans hstep
  obtain ⟨hRSP, hcmds⟩ := exec_microOp_RSP_cmds hi hexec
  refine ⟨t, hstep, stepKeepsInvariant s t h hstep, hr.drop (k := 1) ?_, ?_, hRSP, hcmds⟩
  · rw [exec_microOp_edges hi hexec, nextEdge_edges, List.drop_one]
  · exact hostSteps_of_microOp (s := s.nextEdge) h.nextEdge hi hexec

/-- Without a reset the counted number of steps leads to a host phase. -/
theorem run_hostSteps {n : Nat} {s : State} (h : s.Inv) (hr : s.noReset) (hn : s.hostSteps = n) :
    ∃ t, Host.Core.run core n s = .next t ∧ t.PH.isHost = true ∧ t.RSP = s.RSP ∧ t.cmds = s.cmds := by
  induction n generalizing s with
  | zero =>
    cases hp : s.PH.isHost with
    | true => exact ⟨s, rfl, hp, rfl, rfl⟩
    | false =>
      obtain ⟨t, -, -, -, hcount, -⟩ := exists_step_of_engine h hr hp
      omega
  | succ n ih =>
    cases hp : s.PH.isHost with
    | true =>
      have hzero := hostSteps_of_isHost hp
      omega
    | false =>
      obtain ⟨u, hstep, hu, hru, hcount, hRSP, hcmds⟩ := exists_step_of_engine h hr hp
      obtain ⟨t, hrun, hhost, hRSP', hcmds'⟩ := ih hu hru (by omega)
      exact ⟨t, by rw [run_succ n s u hstep, hrun], hhost, hRSP'.trans hRSP, hcmds'.trans hcmds⟩

/-- Settles O55: the counted steps, which are at most 332. -/
theorem engineReachesHostPhase : Obligations.EngineReachesHostPhase := by
  intro s h hr _
  obtain ⟨t, hrun, hresult⟩ := run_hostSteps h hr rfl
  exact ⟨s.hostSteps, t, hostSteps_le h, hrun, hresult⟩

end Sys2Proof.Machine
end

section
/-! Proofs of the statements on the constants and on the formatter (10_state.md R25, R26, 44_formatter.md R175 to
R179). -/

namespace Sys2Proof.Machine

open Claim

/-! ### The constants -/

/-- The first 64 primes, written out. -/
def primeTable : List Nat :=
  [2, 3, 5, 7, 11, 13, 17, 19, 23, 29, 31, 37, 41, 43, 47, 53, 59, 61, 67, 71, 73, 79, 83, 89, 97, 101, 103, 107, 109,
    113, 127, 131, 137, 139, 149, 151, 157, 163, 167, 173, 179, 181, 191, 193, 197, 199, 211, 223, 227, 229, 233, 239,
    241, 251, 257, 263, 269, 271, 277, 281, 283, 293, 307, 311]

/-- Trial division by the numbers below 18 decides primality below `18 * 18`. -/
theorem prime_iff_trialDivision {p : Nat} (hp : p < 312) :
    p.Prime ↔ 2 ≤ p ∧ ∀ m < 18, 2 ≤ m → m * m ≤ p → ¬ m ∣ p := by
  rw [Nat.prime_def_le_sqrt]
  refine and_congr_right fun _ => ⟨fun h m _ h2 hm => h m h2 (Nat.le_sqrt.2 hm), fun h m h2 hm => ?_⟩
  have hsq := Nat.le_sqrt.1 hm
  exact h m (by nlinarith) h2 hsq

theorem primes64_eq : primes64 = primeTable := by
  have htrial : primes64 =
      (List.range 312).filter fun p => decide (2 ≤ p ∧ ∀ m < 18, 2 ≤ m → m * m ≤ p → ¬ m ∣ p) :=
    List.filter_congr fun p hp => decide_eq_decide.2 (prime_iff_trialDivision (List.mem_range.1 hp))
  rw [htrial]
  decide +kernel

/-- `w` is the first 32 fractional bits of the `n`-th root of `p`, whose integer part is `q`. -/
def IsRootFraction (n p : Nat) (w : Word) (q : Nat) : Prop :=
  (q * 2 ^ 32 + w.toNat) ^ n ≤ p * 2 ^ (32 * n) ∧ p * 2 ^ (32 * n) < (q * 2 ^ 32 + w.toNat + 1) ^ n

theorem IsRootFraction.exists_root {n p q : Nat} {w : Word} (h : IsRootFraction n p w q) :
    ∃ r : Nat, r ^ n ≤ p * 2 ^ (32 * n) ∧ p * 2 ^ (32 * n) < (r + 1) ^ n ∧ r % 2 ^ 32 = w.toNat := by
  obtain ⟨hlo, hhi⟩ := h
  exact ⟨_, hlo, hhi, by rw [Nat.mul_add_mod_self_right, Nat.mod_eq_of_lt w.isLt]⟩

theorem K_isRootFraction : ∀ t : Fin 64, ∃ q < 7, IsRootFraction 3 (primeTable.getD t.val 0) K[t] q := by
  unfold IsRootFraction
  decide +kernel

theorem IV_isRootFraction : ∀ k : Fin 8, ∃ q < 5, IsRootFraction 2 (primeTable.getD k.val 0) IV[k] q := by
  unfold IsRootFraction
  decide +kernel

/-- Settles O41: the 64 primes by trial division, and each table entry by comparing powers. -/
theorem constantsAreFractionsOfRoots : Obligations.ConstantsAreFractionsOfRoots := by
  have hprime : ∀ {k p : Nat}, primes64[k]? = some p → primeTable.getD k 0 = p := fun {k p} h => by
    rw [List.getD_eq_getElem?_getD, ← primes64_eq, h, Option.getD_some]
  refine ⟨by rw [primes64_eq]; rfl, fun t p hp => ?_, fun k p hp => ?_⟩
  · obtain ⟨q, -, hq⟩ := K_isRootFraction t
    rw [hprime hp] at hq
    exact hq.exists_root
  · obtain ⟨q, -, hq⟩ := IV_isRootFraction k
    rw [hprime hp] at hq
    exact hq.exists_root

/-! ### The formatter -/

/-- The code of a digit is its ASCII code (R177). -/
theorem toNat_hexDigit : ∀ v : BitVec 4, (hexDigit v).toNat = (hexCode v).toNat := by
  decide

theorem hex_map_toNat (Hs : Words8) :
    (hex Hs).map (fun c => c.toNat) = (List.finRange 64).map (fun j => (hexChar Hs j).toNat) := by
  rw [hex, List.map_map]
  exact List.map_congr_left fun j _ => toNat_hexDigit _

theorem length_hex (Hs : Words8) : (hex Hs).length = 64 := by
  rw [hex, List.length_map, List.length_finRange]

/-- The 64 nibbles are 32 pairs. -/
theorem map_finRange_eq_flatMap {α : Type} (f : Fin 64 → α) :
    (List.finRange 64).map f =
      (List.finRange 32).flatMap fun i => [f ⟨2 * i.val, by omega⟩, f ⟨2 * i.val + 1, by omega⟩] := by
  rfl

/-- A nibble of a word is a nibble of one of its bytes. -/
theorem nibble_eq_extractLsb' (x : Word) {m n k : Nat} (hm : 28 - 4 * m = n + k) (hk : k + 4 ≤ 8) :
    nibble x m = (x.extractLsb' n 8).extractLsb' k 4 := by
  rw [nibble, hm]
  ext i hi
  simp [show k + i < 8 by omega, Nat.add_assoc]

theorem nib_eq_nibble (Hs : Words8) {k m : Nat} (hk : k < 8) {j : Fin 64} (hm : m < 8) (hj : j.val = 8 * k + m) :
    nib Hs j = nibble Hs[k] m := by
  have hdiv : j.val / 8 = k := by omega
  have hmod : j.val % 8 = m := by omega
  simp only [nib, hdiv, hmod]

/-- The digits of a byte of the digest, high first (R175, R176). -/
theorem hex_eq_flatMap (Hs : Words8) :
    hex Hs = (digestBytes Hs).flatMap (fun b => [hexDigit (b.extractLsb' 4 4), hexDigit (b.extractLsb' 0 4)]) := by
  rw [hex, map_finRange_eq_flatMap, digestBytes, List.flatMap_map]
  refine List.flatMap_congr fun i _ => ?_
  have hi := i.isLt
  rw [nib_eq_nibble Hs (k := i.val / 4) (m := 2 * (i.val % 4)) (by omega) (by omega) (by simp; omega),
    nib_eq_nibble Hs (k := i.val / 4) (m := 2 * (i.val % 4) + 1) (by omega) (by omega) (by simp; omega),
    nibble_eq_extractLsb' (n := 24 - 8 * (i.val % 4)) (k := 4) _ (by omega) (by decide),
    nibble_eq_extractLsb' (n := 24 - 8 * (i.val % 4)) (k := 0) _ (by omega) (by decide)]

/-- The first `n` nibbles of a word, the most significant first, have the value of its high bits (R54). -/
theorem foldl_nibble (x : Word) (n : Nat) (hn : n ≤ 8) :
    (List.range n).foldl (fun v m => 16 * v + (nibble x m).toNat) 0 = x.toNat / 2 ^ (32 - 4 * n) := by
  induction n with
  | zero => exact (Nat.div_eq_of_lt x.isLt).symm
  | succ n ih =>
    have hpow : 2 ^ (32 - 4 * n) = 2 ^ (28 - 4 * n) * 16 := by
      rw [show 32 - 4 * n = 28 - 4 * n + 4 by omega, Nat.pow_add]
    rw [List.range_succ, List.foldl_append, ih (by omega), List.foldl_cons, List.foldl_nil, toNat_nibble, hpow,
      ← Nat.div_div_eq_div_mul, show 32 - 4 * (n + 1) = 28 - 4 * n by omega]
    omega

/-- Settles O44: the digits by their codes, in pairs by byte, and by word as its value. -/
theorem hexSpellsDigest : Obligations.HexSpellsDigest := by
  refine fun Hs => ⟨length_hex Hs, hex_map_toNat Hs, hex_eq_flatMap Hs, fun k => ?_⟩
  have hvalue := foldl_nibble Hs[k] 8 le_rfl
  rw [Nat.sub_self, Nat.pow_zero, Nat.div_one] at hvalue
  rw [← hvalue]
  refine List.foldl_ext _ _ _ fun v m hm => ?_
  have hm := List.mem_range.1 hm
  have hk := k.isLt
  rw [nib_eq_nibble Hs hk hm (Nat.mod_eq_of_lt (by omega))]
  rfl

end Sys2Proof.Machine
end

section
/-! Proof of the statement on the padding function (41_padder.md R120 to R122): the padded message is the message, the
terminator, zeros up to 56 bytes in its last block, and the length; its blocks cut it without a rest. -/

namespace Sys2Proof.Machine

open Claim

/-! ### Blocks -/

/-- The first `n` whole pieces of 64 bytes, joined, are the first `64 * n` bytes. -/
theorem flatten_pieces (P : List Byte) (n : Nat) :
    ((List.range n).map fun q => (P.drop (64 * q)).take 64).flatten = P.take (64 * n) := by
  induction n with
  | zero => rfl
  | succ n ih =>
    rw [List.range_succ, List.map_append, List.flatten_append, ih, Nat.mul_succ, List.take_add]
    simp

theorem length_blocks (P : List Byte) : (blocks P).length = P.length / 64 := by
  rw [blocks, List.length_map, List.length_range]

theorem length_of_mem_blocks {P b : List Byte} (hb : b ∈ blocks P) : b.length = 64 := by
  rw [blocks, List.mem_map] at hb
  obtain ⟨q, hq, rfl⟩ := hb
  have hq := List.mem_range.1 hq
  rw [List.length_take, List.length_drop]
  omega

theorem flatten_blocks {P : List Byte} (hP : P.length % 64 = 0) : (blocks P).flatten = P := by
  rw [blocks, flatten_pieces, List.take_of_length_le (by omega)]

/-- The bytes of `P` behind its whole blocks. -/
def restBytes (P : List Byte) : List Byte := P.drop (64 * (P.length / 64))

theorem length_restBytes (P : List Byte) : (restBytes P).length = P.length % 64 := by
  rw [restBytes, List.length_drop]
  omega

/-- Another byte leaves the whole blocks as they are, and completes one when 63 bytes were left over. -/
theorem blocks_concat (P : List Byte) (v : Byte) :
    blocks (P ++ [v]) = if P.length % 64 = 63 then blocks P ++ [restBytes P ++ [v]] else blocks P := by
  have hlen : (P ++ [v]).length = P.length + 1 := List.length_append
  have hold : ∀ q ∈ List.range (P.length / 64), ((P ++ [v]).drop (64 * q)).take 64 = (P.drop (64 * q)).take 64 := by
    intro q hq
    have hq := List.mem_range.1 hq
    rw [List.drop_append_of_le_length (by omega), List.take_append_of_le_length (by rw [List.length_drop]; omega)]
  rw [blocks, hlen]
  split
  case isTrue h63 =>
    rw [show (P.length + 1) / 64 = P.length / 64 + 1 by omega, List.range_succ, List.map_append,
      List.map_congr_left hold, List.map_singleton, List.drop_append_of_le_length (by omega),
      List.take_of_length_le (by rw [List.length_append, List.length_drop, List.length_singleton]; omega)]
    rfl
  case isFalse h63 =>
    rw [show (P.length + 1) / 64 = P.length / 64 by omega, List.map_congr_left hold]
    rfl

/-! ### The padded message -/

/-- The message, the terminator and the zeros: what precedes the length suffix. -/
def padHead (M : List Byte) : List Byte := M ++ 0x80 :: List.replicate (padZeros M.length) 0x00

theorem length_padHead (M : List Byte) : (padHead M).length = M.length + 1 + padZeros M.length := by
  rw [padHead, List.length_append, List.length_cons, List.length_replicate]
  omega

/-- The zeros fill the last block up to the length suffix (R120). -/
theorem length_padHead_mod (M : List Byte) : (padHead M).length % 64 = 56 := by
  rw [length_padHead, padZeros]
  omega

/-- The padded message, its suffix as the bytes that `PADL` appends (R53, R120). -/
theorem pad_eq {M : List Byte} (hM : M.length ≤ 2 ^ 61 - 1) :
    pad M = some (padHead M ++ (List.range 8).map (lenByte (BitVec.ofNat 64 (8 * M.length)))) :=
  if_pos hM

/-- Settles O42: lengths by arithmetic, each part of the padded message by its position, and the blocks as above. -/
theorem paddingInvariants : Obligations.PaddingInvariants := by
  intro M hM
  have hhead := length_padHead M
  have hmod := length_padHead_mod M
  have hlen : (padHead M ++ (List.range 8).map (lenByte (BitVec.ofNat 64 (8 * M.length)))).length =
      (padHead M).length + 8 := by
    rw [List.length_append, List.length_map, List.length_range]
  have hzeros : padZeros M.length < 64 := Nat.mod_lt _ (by decide)
  refine ⟨_, pad_eq hM, ?_⟩
  generalize hP : padHead M ++ (List.range 8).map (lenByte (BitVec.ofNat 64 (8 * M.length))) = P at hlen
  have hleft : ∀ a, a < (padHead M).length → P[a]? = (padHead M)[a]? := fun a ha => by
    rw [← hP, List.getElem?_append_left ha]
  refine ⟨by omega, by omega, by omega, by omega, ?message, ?terminator, ?zeros, ?suffix, by omega, length_blocks P,
    fun b hb => length_of_mem_blocks hb, flatten_blocks (by omega)⟩
  case message => rw [← hP, padHead, List.append_assoc, List.take_left]
  case terminator =>
    rw [hleft _ (by omega), padHead, List.getElem?_append_right le_rfl, Nat.sub_self]
    rfl
  case zeros =>
    intro a hlo hhi
    rw [hleft _ (by omega), padHead, List.getElem?_append_right hlo.le,
      show a - M.length = a - M.length - 1 + 1 by omega,
      List.getElem?_cons_succ, List.getElem?_replicate_of_lt (by omega)]
  case suffix =>
    intro j hj
    rw [hlen, Nat.add_sub_cancel, ← hP, List.getElem?_append_right (Nat.le_add_right _ _), Nat.add_sub_cancel_left,
      List.getElem?_map, List.getElem?_range hj, Option.map_some, lenByte_eq_ofNat_div, BitVec.toNat_ofNat,
      Nat.mod_eq_of_lt (by omega)]

end Sys2Proof.Machine
end

section
/-! Proofs of the transaction statements (45_commands.md section 4, R195, 43_compression.md R162). The engine takes in
one byte string: the message by `DATA`, then the padding by its own steps. What the registers hold is said by the bytes
taken in so far, and every byte, whatever appends it, extends that string by one. -/

namespace Sys2Proof.Machine

open Claim

/-! ### Reaching a state -/

/-- Some run leads from `s` to a state with the property. -/
def Reaches (s : State) (Q : State → Prop) : Prop := ∃ k t, Host.Core.run core k s = .next t ∧ Q t

theorem Reaches.refl {s : State} {Q : State → Prop} (h : Q s) : Reaches s Q := ⟨0, s, rfl, h⟩

theorem Reaches.trans {s : State} {Q Q' : State → Prop} (h : Reaches s Q) (h' : ∀ t, Q t → Reaches t Q') :
    Reaches s Q' := by
  obtain ⟨j, t, hj, ht⟩ := h
  obtain ⟨k, u, hk, hu⟩ := h' t ht
  exact ⟨j + k, u, (run_add j k s t hj).trans hk, hu⟩

theorem Reaches.of_step {s t : State} {Q : State → Prop} (hstep : step s = .next t) (h : Reaches t Q) :
    Reaches s Q := by
  obtain ⟨k, u, hk, hu⟩ := h
  exact ⟨k + 1, u, (run_succ k s t hstep).trans hk, hu⟩

/-! ### The bytes taken in -/

/-- The engine has taken in the bytes `P` since `INIT` and is in phase `p`: the whole blocks of `P` are compressed, the
rest of `P` is in the buffer. `len` is the length counter, `rsp` the response history and `cs` the words still
offered. -/
structure Took (P : List Byte) (p : Phase) (len : BitVec 64) (rsp : List Response) (cs : List CmdWord) (s : State) :
    Prop where
  noReset : s.noReset
  H : s.H = (blocks P).foldl compress IV
  N : s.N.toNat = (restBytes P).length
  B : ∀ a, a < (restBytes P).length → s.B.read a = (restBytes P)[a]?
  PH : s.PH = p
  LEN : s.LEN = len
  RSP : s.RSP = rsp
  cmds : s.cmds = cs

theorem length_restBytes_lt (P : List Byte) : (restBytes P).length < 64 := by
  rw [length_restBytes]
  exact Nat.mod_lt _ (by decide)

theorem restBytes_concat {P : List Byte} (h : P.length % 64 ≠ 63) (v : Byte) :
    restBytes (P ++ [v]) = restBytes P ++ [v] := by
  have hdiv : (P.length + 1) / 64 = P.length / 64 := by omega
  rw [restBytes, restBytes, List.length_append, List.length_singleton, hdiv, List.drop_append_of_le_length (by omega)]

/-- The next free byte of the buffer continues the bytes it holds. -/
theorem read_write_concat {m : Memory} {bs : List Byte} (h : ∀ a, a < bs.length → m.read a = bs[a]?) (v : Byte)
    (a : Nat) (ha : a < (bs ++ [v]).length) : (m.write bs.length v).read a = (bs ++ [v])[a]? := by
  rw [List.length_append, List.length_singleton] at ha
  rw [Memory.read_write]
  split
  case isTrue heq => rw [heq, List.getElem?_concat_length]
  case isFalse hne => rw [h a (by omega), List.getElem?_append_left (by omega)]

/-- An append, and the block when it completes one, takes in one more byte (R127, R160). -/
theorem Took.reaches_append {P : List Byte} {p : Phase} {len : BitVec 64} {rsp : List Response} {cs : List CmdWord}
    {s : State} (h : Took P p len rsp cs s) (r q : Phase) (v : Byte) :
    Reaches (nextAfterByte r q { s with B := s.B.write s.N.toNat v, N := s.N + 1#7 })
      (Took (P ++ [v]) (if (P.length + 1) % 64 = 0 then r else q) len rsp cs) := by
  have hlt := length_restBytes_lt P
  have hrest := length_restBytes P
  have hN := toNat_add_one (h.N.trans_lt hlt)
  have hB := read_write_concat h.B v
  have h64 : s.N + 1#7 = 64#7 ↔ P.length % 64 = 63 := by
    rw [succ_eq_64_iff, ← BitVec.toNat_inj, h.N, hrest]
    rfl
  unfold nextAfterByte
  by_cases hfull : P.length % 64 = 63
  · rw [if_pos (h64.2 hfull), if_pos (by omega)]
    have hempty : (restBytes (P ++ [v])).length = 0 := by
      rw [length_restBytes, List.length_append, List.length_singleton]
      omega
    obtain ⟨W, hrun⟩ := run_block
      (s := blockComplete r { s with B := s.B.write s.N.toNat v, N := s.N + 1#7 }) (blk := restBytes P ++ [v])
      h.noReset rfl rfl (by rw [List.length_append, List.length_singleton]; omega)
      (fun a ha => by rw [blockComplete_B, h.N]; exact hB a (by rw [List.length_append, List.length_singleton]; omega))
    refine ⟨130, _, hrun, h.noReset.drop (k := 130) rfl, ?_, hempty.symm, fun a ha => by omega, rfl, h.LEN, h.RSP,
      h.cmds⟩
    rw [blocks_concat, if_pos hfull, List.foldl_append, ← h.H]
    exact (compress_eq s.H _).symm
  · rw [if_neg (mt h64.1 hfull), if_neg (by omega)]
    refine Reaches.refl ⟨h.noReset, ?_, ?_, ?_, rfl, h.LEN, h.RSP, h.cmds⟩
    · rw [blocks_concat, if_neg hfull]
      exact h.H
    · rw [restBytes_concat hfull, List.length_append, ← h.N]
      exact hN
    · rw [restBytes_concat hfull, h.N]
      exact hB

/-! ### The padding -/

/-- The fields of `Took` that the use of an edge leaves. -/
theorem Took.nextEdge {P : List Byte} {p : Phase} {len : BitVec 64} {rsp : List Response} {cs : List CmdWord}
    {s : State} (h : Took P p len rsp cs s) : Took P p len rsp cs s.nextEdge :=
  ⟨noReset_nextEdge s h.noReset, h.H, h.N, h.B, h.PH, h.LEN, h.RSP, h.cmds⟩

section Padding

variable {P : List Byte} {len : BitVec 64} {rsp : List Response} {cs : List CmdWord} {s : State}

/-- `PADT` and `PADZ` append their byte and go to `PADL` where the length suffix begins (R124, R125, R127). -/
theorem Took.reaches_padByte {p : Phase} {v : Byte} (h : Took P p len rsp cs s)
    (hp : p = .padt ∧ v = 0x80#8 ∨ p = .padz ∧ v = 0x00#8) :
    Reaches s (Took (P ++ [v]) (if (P.length + 1) % 64 = 56 then .padl else .padz) len rsp cs) := by
  have hlt := length_restBytes_lt P
  have hrest := length_restBytes P
  have hN : s.nextEdge.N.toNat < 64 := h.N.trans_lt hlt
  have h56 : s.nextEdge.N + 1#7 = 56#7 ↔ (P.length + 1) % 64 = 56 := by
    rw [succ_eq_56_iff, ← BitVec.toNat_inj, nextEdge_N, h.N, hrest]
    show P.length % 64 = 55 ↔ _
    omega
  have hstep : step s = .next (nextAfterAppend .padz
      { s.nextEdge with B := s.nextEdge.B.write s.nextEdge.N.toNat v, N := s.nextEdge.N + 1#7 }) := by
    rcases hp with ⟨rfl, rfl⟩ | ⟨rfl, rfl⟩
    · rw [step_microOp s .padt (rst_of_noReset s h.noReset) (by rw [h.PH]; rfl)]
      exact (execPadt_eq_next _ _).2 ⟨hN, rfl⟩
    · rw [step_microOp s .padz (rst_of_noReset s h.noReset) (by rw [h.PH]; rfl)]
      exact (execPadz_eq_next _ _).2 ⟨hN, rfl⟩
  refine .of_step hstep ?_
  rw [nextAfterAppend_eq_nextAfterByte]
  have happend := h.nextEdge.reaches_append .padz (if (P.length + 1) % 64 = 56 then .padl else .padz) v
  have hphase : (if (P.length + 1) % 64 = 0 then .padz else if (P.length + 1) % 64 = 56 then .padl else .padz) =
      (if (P.length + 1) % 64 = 56 then .padl else .padz : Phase) := by
    by_cases hzero : (P.length + 1) % 64 = 0
    · rw [if_pos hzero, if_neg (by omega)]
    · rw [if_neg hzero]
  rw [hphase] at happend
  simpa only [h56] using happend

/-- The zeros, up to where the length suffix begins (R125). -/
theorem Took.reaches_zeros {z : Nat} (hz : z < 64) (hmod : (P.length + z) % 64 = 56)
    (h : Took P (if z = 0 then .padl else .padz) len rsp cs s) :
    Reaches s (Took (P ++ List.replicate z 0x00#8) .padl len rsp cs) := by
  induction z generalizing P s with
  | zero => exact .refl (by simpa using h)
  | succ z ih =>
    refine (h.reaches_padByte (.inr ⟨rfl, rfl⟩)).trans fun t ht => ?_
    have hphase : (P.length + 1) % 64 = 56 ↔ z = 0 := by omega
    simp only [hphase] at ht
    have hrest := ih (by omega) (by rw [List.length_append, List.length_singleton]; omega) ht
    rwa [List.append_assoc, List.singleton_append, ← List.replicate_succ] at hrest

/-- The bytes of the length suffix (R126). -/
theorem Took.reaches_suffix (h : Took P .padl len rsp cs s) (hmod : P.length % 64 = 56) (j : Nat) (hj : j ≤ 8) :
    Reaches s (Took (P ++ (List.range j).map (lenByte len)) (if j = 8 then .done else .padl) len rsp cs) := by
  induction j with
  | zero => exact .refl (by simpa using h)
  | succ j ih =>
    refine (ih (by omega)).trans fun t ht => ?_
    rw [if_neg (by omega)] at ht
    have hlen : (P ++ (List.range j).map (lenByte len)).length = P.length + j := by
      rw [List.length_append, List.length_map, List.length_range]
    have hN : t.nextEdge.N.toNat = 56 + j := by
      rw [nextEdge_N, ht.N, length_restBytes, hlen]
      omega
    have hstep : step t = .next (nextAfterByte .done .padl
        { t.nextEdge with B := t.nextEdge.B.write t.nextEdge.N.toNat (lenByte len j), N := t.nextEdge.N + 1#7 }) := by
      rw [step_microOp t .padl (rst_of_noReset t ht.noReset) (by rw [ht.PH]; rfl)]
      refine (execPadl_eq_next _ _).2 ⟨by omega, ?_⟩
      rw [show lenByte t.nextEdge.LEN (t.nextEdge.N.toNat - 56) = lenByte len j by
        rw [nextEdge_LEN, ht.LEN, hN, Nat.add_sub_cancel_left]]
    have happend := ht.nextEdge.reaches_append .done .padl (lenByte len j)
    have hphase : (P.length + j + 1) % 64 = 0 ↔ j + 1 = 8 := by omega
    simp only [hlen, hphase, List.append_assoc] at happend
    rw [List.range_succ, List.map_append]
    exact .of_step hstep happend

/-- A message that has a padding has a legal length (R123). -/
theorem length_le_of_pad_eq_some {M Q : List Byte} (hQ : pad M = some Q) : M.length ≤ 2 ^ 61 - 1 := by
  by_contra hlong
  rw [pad, if_neg hlong] at hQ
  cases hQ

/-- The padder takes in the padding of the message (R120, R128). -/
theorem Took.reaches_padded {M Q : List Byte} (h : Took M .padt (BitVec.ofNat 64 (8 * M.length)) rsp cs s)
    (hQ : pad M = some Q) : Reaches s (Took Q .done (BitVec.ofNat 64 (8 * M.length)) rsp cs) := by
  rw [pad_eq (length_le_of_pad_eq_some hQ)] at hQ
  cases hQ
  have hzeros : padZeros M.length < 64 := Nat.mod_lt _ (by decide)
  have hmod := length_padHead_mod M
  have hlen := length_padHead M
  have hphase : (M.length + 1) % 64 = 56 ↔ padZeros M.length = 0 := by omega
  refine (h.reaches_padByte (.inl ⟨rfl, rfl⟩)).trans fun t ht => ?_
  simp only [hphase] at ht
  refine (ht.reaches_zeros hzeros (by rw [List.length_append, List.length_singleton]; omega)).trans fun u hu => ?_
  rw [List.append_assoc, List.singleton_append] at hu
  exact hu.reaches_suffix hmod 8 le_rfl

end Padding

/-! ### Offering a word -/

/-- In a host phase the host offers its next word after finitely many pauses, and a pause changes nothing (R185). -/
theorem exists_offer {es : List PortEdge} {s : State} {c : CmdWord} {cs : List CmdWord} (hes : s.edges = es)
    (hr : s.noReset) (hp : s.PH.isHost = true) (hc : s.cmds = c :: cs) :
    ∃ n k, Host.Core.run core k s = .next { s with edges := s.edges.drop n } ∧
      ({ s with edges := s.edges.drop n } : State).cmdPort = some c := by
  have hport : s.edge.offer = true → s.cmdPort = some c := fun hoffer => by
    rw [State.cmdPort, if_pos hoffer, hc, List.head?_cons]
  induction es generalizing s with
  | nil => exact ⟨0, 0, rfl, hport (by rw [State.edge, hes])⟩
  | cons e es ih =>
    have hedge : s.edge = e := by rw [State.edge, hes]
    cases hoffer : e.offer with
    | true => exact ⟨0, 0, rfl, hport (by rw [hedge, hoffer])⟩
    | false =>
      have hidle : step s = .next s.nextEdge :=
        step_idle s (rst_of_noReset s hr) hp (by rw [State.cmdPort, hedge, if_neg (by rw [hoffer]; decide)])
      have hnext : s.nextEdge.edges = es := by rw [nextEdge_edges, hes, List.tail_cons]
      obtain ⟨n, k, hrun, hport'⟩ := ih hnext (noReset_nextEdge s hr) hp hc fun hoffer' => by
        rw [State.cmdPort, if_pos hoffer', nextEdge_cmds, hc, List.head?_cons]
      have hdrop : s.nextEdge.edges.drop n = s.edges.drop (n + 1) := by rw [nextEdge_edges, List.drop_tail]
      rw [hdrop] at hrun hport'
      exact ⟨n + 1, k + 1, (run_succ k s _ hidle).trans hrun, hport'⟩

/-- What a word leads to is what its step leads to, taken from the state in which it is accepted. -/
theorem reaches_of_accept {s : State} {c : CmdWord} {cs : List CmdWord} {Q : State → Prop} (hr : s.noReset)
    (hp : s.PH.isHost = true) (hc : s.cmds = c :: cs)
    (h : ∀ es, ({ s with edges := es } : State).noReset → ({ s with edges := es } : State).cmdPort = some c →
      ∃ t, step { s with edges := es } = .next t ∧ Reaches t Q) : Reaches s Q := by
  obtain ⟨n, k, hrun, hport⟩ := exists_offer rfl hr hp hc
  obtain ⟨t, hstep, ht⟩ := h _ (hr.drop (k := n) rfl) hport
  exact Reaches.trans ⟨k, _, hrun, rfl⟩ fun u hu => hu ▸ .of_step hstep ht

/-! ### The commands of a transaction -/

/-- The word of `DATA b` as a transaction writes it. -/
def dataWord (b : Byte) : CmdWord := 0x200 + b.setWidth 12

/-- The word of `RDX j` as a transaction writes it. -/
def rdxWord (j : Nat) : CmdWord := BitVec.ofNat 12 (0x500 + j)

theorem hashing_eq (M : List Byte) : hashing M = 0x100 :: (M.map dataWord ++ [0x300]) := rfl

theorem readOut_eq : readOut = (List.range 64).map rdxWord := rfl

theorem decodeCommand_dataWord (b : Byte) : decodeCommand (dataWord b) = .ok (.data b) := by
  have hword : commandWord 0x2 b = dataWord b := commandWord_eq 2 rfl (by
    rw [dataWord, BitVec.toNat_add, BitVec.toNat_setWidth_of_le (by decide)]
    have hlt := b.isLt
    show 512 + b.toNat = (512 + b.toNat) % 4096
    omega)
  rw [← hword]
  exact decode_encode (i := .data b) rfl

theorem decodeCommand_rdxWord {j : Nat} (hj : j < 64) : decodeCommand (rdxWord j) = .ok (.rdx (BitVec.ofNat 8 j)) := by
  have hj8 : (BitVec.ofNat 8 j).toNat = j := Nat.mod_eq_of_lt (by omega)
  have hword : commandWord 0x5 (BitVec.ofNat 8 j) = rdxWord j := commandWord_eq 5 rfl (by
    rw [rdxWord, hj8, BitVec.toNat_ofNat]
    show 1280 + j = (1280 + j) % 4096
    omega)
  rw [← hword]
  exact decode_encode (i := .rdx (BitVec.ofNat 8 j)) (decide_eq_true (by omega))

/-- The response of a command that is performed and has no data. -/
def okResponse : Response := { st := .ok, data := 0#32 }

section Commands

variable {P : List Byte} {len : BitVec 64} {rsp : List Response} {cs : List CmdWord} {s : State}

/-- `INIT` starts with nothing taken in, whatever the registers held (R186). -/
theorem reaches_init (hr : s.noReset) (hp : s.PH.isHost = true) (hc : s.cmds = 0x100 :: cs) :
    Reaches s (Took [] .absorb 0#64 (s.RSP ++ [okResponse]) cs) := by
  refine reaches_of_accept hr hp hc fun es hes hport => ?_
  refine ⟨_, step_command _ 0x100 .init (rst_of_noReset _ hes) hp hport rfl, .refl ?_⟩
  exact ⟨noReset_takeCommand _ hes, rfl, rfl, fun _ ha => absurd ha (Nat.not_lt_zero _), rfl, rfl, rfl,
    congrArg List.tail hc⟩

/-- `DATA` takes in its byte while the length counter has room (R187). -/
theorem Took.reaches_data {b : Byte} (h : Took P .absorb len rsp (dataWord b :: cs) s) (hlen : len ≠ Config.maxLen) :
    Reaches s (Took (P ++ [b]) .absorb (len + 8#64) (rsp ++ [okResponse]) cs) := by
  have hp : s.PH.isHost = true := by rw [h.PH]; rfl
  refine reaches_of_accept h.noReset hp h.cmds fun es hes hport => ?_
  refine ⟨_, (step_command _ _ _ (rst_of_noReset _ hes) hp hport (decodeCommand_dataWord b)).trans
    ((execData_eq_next b _ _).2 (.inr (.inr ⟨h.PH, h.LEN ▸ hlen, h.N.trans_lt (length_restBytes_lt P), rfl⟩))), ?_⟩
  have hready : Took P .absorb (len + 8#64) (rsp ++ [okResponse]) cs
      { ({ s with edges := es } : State).takeCommand with
        LEN := s.LEN + 8#64, RSP := s.RSP ++ [okResponse] } :=
    ⟨noReset_takeCommand _ hes, h.H, h.N, h.B, h.PH, by rw [h.LEN], by rw [h.RSP], congrArg List.tail h.cmds⟩
  have happend := hready.reaches_append .absorb .absorb b
  rw [ite_self] at happend
  refine Eq.subst (motive := fun u => Reaches u _) ?_ happend
  simp only [nextAfterByte_eq, respond]
  rfl

/-- `FINAL` hands over to the padder (R188). -/
theorem Took.reaches_final (h : Took P .absorb len rsp (0x300 :: cs) s) :
    Reaches s (Took P .padt len (rsp ++ [okResponse]) cs) := by
  have hp : s.PH.isHost = true := by rw [h.PH]; rfl
  refine reaches_of_accept h.noReset hp h.cmds fun es hes hport => ?_
  refine ⟨_, (step_command _ 0x300 .final (rst_of_noReset _ hes) hp hport rfl).trans
    ((execFinal_eq_next _ _).2 (.inr ⟨h.PH, rfl⟩)), .refl ?_⟩
  exact ⟨noReset_takeCommand _ hes, h.H, h.N, h.B, rfl, h.LEN, congrArg (· ++ [okResponse]) h.RSP,
    congrArg List.tail h.cmds⟩

/-- `RDX j` in `DONE` answers the code of character `j` (R190). -/
theorem Took.reaches_rdx {j : Nat} (hj : j < 64) (h : Took P .done len rsp (rdxWord j :: cs) s) :
    Reaches s (Took P .done len
      (rsp ++ [{ st := .ok, data := (hexChar ((blocks P).foldl compress IV) ⟨j, hj⟩).setWidth 32 }]) cs) := by
  have hp : s.PH.isHost = true := by rw [h.PH]; rfl
  have hj8 : (BitVec.ofNat 8 j).toNat = j := Nat.mod_eq_of_lt (by omega)
  refine reaches_of_accept h.noReset hp h.cmds fun es hes hport => ?_
  refine ⟨_, (step_command _ _ _ (rst_of_noReset _ hes) hp hport (decodeCommand_rdxWord hj)).trans
    ((execRdx_eq_next _ _ _).2 (.inr ⟨h.PH, by omega, rfl⟩)), .refl ?_⟩
  refine ⟨noReset_takeCommand _ hes, h.H, h.N, h.B, h.PH, h.LEN, ?_, congrArg List.tail h.cmds⟩
  rw [respond_RSP, ← h.H, ← h.RSP]
  simp only [hj8]
  rfl

/-- The message: one `DATA` after another, while the length counter counts its bits (R187). -/
theorem Took.reaches_message {M : List Byte} (hlen : P.length + M.length ≤ 2 ^ 61 - 1)
    (h : Took P .absorb (BitVec.ofNat 64 (8 * P.length)) rsp (M.map dataWord ++ cs) s) :
    Reaches s (Took (P ++ M) .absorb (BitVec.ofNat 64 (8 * (P ++ M).length))
      (rsp ++ List.replicate M.length okResponse) cs) := by
  induction M generalizing P rsp s with
  | nil => exact .refl (by simpa using h)
  | cons b M ih =>
    rw [List.length_cons] at hlen
    have hroom : BitVec.ofNat 64 (8 * P.length) ≠ Config.maxLen := fun heq => by
      have heq := congrArg BitVec.toNat heq
      rw [BitVec.toNat_ofNat, Nat.mod_eq_of_lt (by omega), show Config.maxLen.toNat = 2 ^ 64 - 8 from rfl] at heq
      omega
    refine (Took.reaches_data h hroom).trans fun t ht => ?_
    have hcount : BitVec.ofNat 64 (8 * P.length) + 8#64 = BitVec.ofNat 64 (8 * (P ++ [b]).length) := by
      rw [List.length_append, List.length_singleton, Nat.mul_add, BitVec.ofNat_add]
    rw [hcount] at ht
    have hmessage := ih (by rw [List.length_append, List.length_singleton]; omega) ht
    rwa [List.append_assoc, List.append_assoc, List.singleton_append, List.singleton_append,
      ← List.replicate_succ] at hmessage

/-- `INIT`, the message and `FINAL`, and the padding after them: the engine takes in the padded message. -/
theorem reaches_padded {M Q : List Byte} (hr : s.noReset) (hp : s.PH.isHost = true) (hc : s.cmds = hashing M ++ cs)
    (hQ : pad M = some Q) :
    Reaches s (Took Q .done (BitVec.ofNat 64 (8 * M.length))
      (s.RSP ++ List.replicate (M.length + 2) okResponse) cs) := by
  rw [hashing_eq, List.cons_append, List.append_assoc] at hc
  have hrsp : s.RSP ++ [okResponse] ++ List.replicate M.length okResponse ++ [okResponse] =
      s.RSP ++ List.replicate (M.length + 2) okResponse := by
    rw [List.replicate_succ, List.replicate_succ', List.append_assoc, List.append_assoc, List.singleton_append]
  refine (reaches_init hr hp hc).trans fun t ht => ?_
  refine (Took.reaches_message (P := []) (by simpa using length_le_of_pad_eq_some hQ) ht).trans fun u hu => ?_
  refine (Took.reaches_final hu).trans fun v hv => ?_
  exact hrsp ▸ Took.reaches_padded hv hQ

/-- The read-out: one `RDX` after another (R190). -/
theorem Took.reaches_readOut (js : List (Fin 64))
    (h : Took P .done len rsp (js.map (fun j => rdxWord j.val) ++ cs) s) :
    Reaches s (Took P .done len
      (rsp ++ js.map fun j =>
        { st := .ok, data := (hexChar ((blocks P).foldl compress IV) j).setWidth 32 }) cs) := by
  induction js generalizing rsp s with
  | nil => exact .refl (by simpa using h)
  | cons j js ih =>
    refine (Took.reaches_rdx j.isLt h).trans fun t ht => ?_
    have hrest := ih ht
    rwa [List.append_assoc, List.singleton_append] at hrest

end Commands

/-- The data of the 64 `RDX` responses are the codes of the digest's characters (R177, R178). -/
theorem rdx_responses_eq (Hs : Words8) :
    (List.finRange 64).map (fun j => ({ st := .ok, data := (hexChar Hs j).setWidth 32 } : Response)) =
      (hex Hs).map fun c => { st := .ok, data := BitVec.ofNat 32 c.toNat } := by
  rw [hex, List.map_map]
  refine List.map_congr_left fun j _ => ?_
  rw [Function.comp, toNat_hexDigit, BitVec.ofNat_toNat]
  rfl

theorem runOver_of_cmds_eq_nil {s : State} (hc : s.cmds = []) (hp : s.PH.isHost = true) : s.runOver = true := by
  rw [State.runOver, hc, hp]
  rfl

/-- Settles O56: the engine takes in the padded message, whose blocks give the digest, and the read-out answers it. -/
theorem transactionAnswersDigest : Obligations.TransactionAnswersDigest := by
  intro s M d hr hp hd hcmds
  obtain ⟨Hs, hsha, rfl⟩ : ∃ Hs, sha256 M = some Hs ∧ hex Hs = d := Option.map_eq_some_iff.1 hd
  obtain ⟨Q, hQ, rfl⟩ : ∃ Q, pad M = some Q ∧ (blocks Q).foldl compress IV = Hs := Option.map_eq_some_iff.1 hsha
  have hwords : readOut = (List.finRange 64).map (fun j => rdxWord j.val) ++ [] := by
    rw [readOut_eq, List.append_nil, ← List.map_coe_finRange_eq_range, List.map_map]
    rfl
  obtain ⟨k, t, hrun, ht⟩ := (reaches_padded hr hp hcmds hQ).trans fun u hu =>
    Took.reaches_readOut (List.finRange 64) (hwords ▸ hu)
  refine ⟨k, t, hrun, ht.PH, ?_, ?_, ?_⟩
  · exact runOver_of_cmds_eq_nil ht.cmds (by rw [ht.PH]; rfl)
  · rw [hsha, ht.H]
  · rw [ht.RSP, rdx_responses_eq]
    rfl

/-! ### A message that is too long -/

/-- The engine has failed with `InputTooLarge`. -/
structure Failed (rsp : List Response) (cs : List CmdWord) (s : State) : Prop where
  noReset : s.noReset
  PH : s.PH = .error
  ERRC : s.ERRC = .inputTooLarge
  RSP : s.RSP = rsp
  cmds : s.cmds = cs

/-- The response of a command that raises. -/
def errorResponse (e : ErrCode) : Response := { st := e, data := 0#32 }

section Overlong

variable {rsp : List Response} {cs : List CmdWord} {s : State}

/-- `DATA` at the maximum of the length counter fails (R187). -/
theorem Took.reaches_tooLarge {P : List Byte} {b : Byte} (h : Took P .absorb Config.maxLen rsp (dataWord b :: cs) s) :
    Reaches s (Failed (rsp ++ [errorResponse .inputTooLarge]) cs) := by
  have hp : s.PH.isHost = true := by rw [h.PH]; rfl
  refine reaches_of_accept h.noReset hp h.cmds fun es hes hport => ?_
  refine ⟨_, (step_command _ _ _ (rst_of_noReset _ hes) hp hport (decodeCommand_dataWord b)).trans
    ((execData_eq_next b _ _).2 (.inr (.inl ⟨h.PH, h.LEN, rfl⟩))), .refl ?_⟩
  have hPH : ({ s with edges := es } : State).takeCommand.PH ≠ .error := by simp [h.PH]
  rw [raise_of_ne_error _ _ hPH]
  exact ⟨noReset_takeCommand _ hes, rfl, rfl, congrArg (· ++ [errorResponse .inputTooLarge]) h.RSP,
    congrArg List.tail h.cmds⟩

/-- A failed engine refuses every word but those of `INIT` and `RDS`, and keeps the first cause (R220). -/
theorem Failed.reaches_refused {ws : List CmdWord} (hws : ∀ c ∈ ws, c ≠ 0x100 ∧ c ≠ 0x600)
    (h : Failed rsp (ws ++ cs) s) :
    Reaches s (Failed (rsp ++ List.replicate ws.length (errorResponse .illegalCommand)) cs) := by
  induction ws generalizing rsp s with
  | nil => exact .refl (by simpa using h)
  | cons c ws ih =>
    obtain ⟨⟨hinit, hrds⟩, hws⟩ := List.forall_mem_cons.1 hws
    have hstep : Reaches s (Failed (rsp ++ [errorResponse .illegalCommand]) (ws ++ cs)) := by
      refine reaches_of_accept h.noReset (by rw [h.PH]; rfl) h.cmds fun es hes hport => ?_
      refine ⟨_, step_of_error (rst_of_noReset _ hes) h.PH hport hinit hrds, .refl ?_⟩
      rw [raise_of_error _ ({ s with edges := es } : State).takeCommand h.PH]
      exact ⟨noReset_takeCommand _ hes, h.PH, h.ERRC, congrArg (· ++ [errorResponse .illegalCommand]) h.RSP,
        congrArg List.tail h.cmds⟩
    refine hstep.trans fun t ht => ?_
    have hrest := ih hws ht
    rwa [List.append_assoc, List.singleton_append, ← List.replicate_succ] at hrest

end Overlong

theorem dataWord_ne (b : Byte) : dataWord b ≠ 0x100 ∧ dataWord b ≠ 0x600 := by
  have hdecode := decodeCommand_dataWord b
  constructor <;> intro heq <;> rw [heq] at hdecode <;> cases hdecode

/-- A function that takes one value on a list. -/
theorem map_eq_replicate {α β : Type} {f : α → β} {xs : List α} {y : β} (h : ∀ x ∈ xs, f x = y) :
    xs.map f = List.replicate xs.length y :=
  (List.map_congr_left h).trans List.map_const'

/-- The responses by byte index: `n` bytes taken in, one too many, `m` refused. -/
theorem map_range_overlong (n m : Nat) :
    (List.range (n + 1 + m)).map (fun i =>
      ({ st := if i < n then .ok else if i = n then .inputTooLarge else .illegalCommand, data := 0#32 } : Response)) =
      List.replicate n okResponse ++ errorResponse .inputTooLarge ::
        List.replicate m (errorResponse .illegalCommand) := by
  rw [List.range_add, List.range_succ, List.map_append, List.map_append, List.map_map, List.append_assoc,
    map_eq_replicate (xs := List.range n) (y := okResponse) ?low,
    map_eq_replicate (xs := List.range m) (y := errorResponse .illegalCommand) ?high, List.length_range,
    List.length_range, List.map_singleton, if_neg (lt_irrefl n), if_pos rfl]
  · rfl
  case low =>
    intro i hi
    rw [if_pos (List.mem_range.1 hi)]
    rfl
  case high =>
    intro i _
    rw [Function.comp, if_neg (by omega), if_neg (by omega)]
    rfl

/-- A message with more bytes than the length counter has room for: `n` bytes fill it. -/
theorem reaches_failed {n : Nat} {s : State} {M : List Byte} {rest : List CmdWord}
    (hmax : BitVec.ofNat 64 (8 * n) = Config.maxLen) (hn : n ≤ 2 ^ 61 - 1) (hr : s.noReset) (hp : s.PH.isHost = true)
    (hM : n < M.length) (hrest : ∀ c ∈ rest, c ≠ 0x100 ∧ c ≠ 0x600) (hc : s.cmds = hashing M ++ rest) :
    Reaches s (Failed (s.RSP ++ okResponse ::
      (List.range M.length).map (fun i =>
        { st := if i < n then .ok else if i = n then .inputTooLarge else .illegalCommand, data := 0#32 }) ++
      List.replicate (rest.length + 1) (errorResponse .illegalCommand)) []) := by
  obtain ⟨pre, b, post, rfl, hpre⟩ : ∃ pre b post, M = pre ++ b :: post ∧ pre.length = n :=
    ⟨M.take n, M[n], M.drop (n + 1), by rw [← List.drop_eq_getElem_cons hM, List.take_append_drop],
      List.length_take_of_le hM.le⟩
  have hlen : (pre ++ b :: post).length = n + 1 + post.length := by
    rw [List.length_append, List.length_cons, hpre]
    omega
  have hwords : hashing (pre ++ b :: post) ++ rest =
      0x100 :: (pre.map dataWord ++ (dataWord b :: ((post.map dataWord ++ 0x300 :: rest) ++ []))) := by
    simp [hashing_eq]
  have hrefused : ∀ c ∈ post.map dataWord ++ 0x300 :: rest, c ≠ 0x100 ∧ c ≠ 0x600 := by
    intro c hc
    rcases List.mem_append.1 hc with hc | hc
    · obtain ⟨b, -, rfl⟩ := List.mem_map.1 hc
      exact dataWord_ne b
    · rcases List.mem_cons.1 hc with rfl | hc
      · decide
      · exact hrest c hc
  refine (reaches_init hr hp (hc.trans hwords)).trans fun t ht => ?_
  refine (Took.reaches_message (P := []) (by simpa [hpre] using hn) ht).trans fun u hu => ?_
  rw [List.nil_append, hpre, hmax] at hu
  refine (Took.reaches_tooLarge hu).trans fun v hv => ?_
  have hfailed := Failed.reaches_refused hrefused hv
  have hcount : (post.map dataWord ++ 0x300 :: rest).length = post.length + (rest.length + 1) := by simp
  rw [hcount, List.replicate_add] at hfailed
  rw [hlen, map_range_overlong]
  simpa using hfailed

/-- Settles O57: the message up to the last byte there is room for, the byte that fails, and the words refused after. -/
theorem overlongMessageFails : Obligations.OverlongMessageFails := by
  intro s M rest hr hp hM hrest hcmds
  obtain ⟨k, t, hrun, ht⟩ := reaches_failed (n := 2 ^ 61 - 1) rfl le_rfl hr hp (by omega) hrest hcmds
  exact ⟨k, t, hrun, ht.PH, ht.ERRC, runOver_of_cmds_eq_nil ht.cmds (by rw [ht.PH]; rfl), ht.RSP⟩

end Sys2Proof.Machine
end
